-- ==== Sys2Proof/Word.lean ====
section
/-! DEFINITION. The machine's words: a 32-bit word, a byte, a 16-byte block (spec/00_scope.md R5, R7). -/

namespace Sys2Proof

/-- A 32-bit unsigned word; its sums and differences wrap modulo 2^32 (R8, R149). -/
abbrev Word := BitVec 32

/-- One byte. -/
abbrev Byte := BitVec 8

/-- A byte offset in the host address space, 0x00 to 0xFF (R51). -/
abbrev Offset := BitVec 8

/-- The "fixed 16-byte unit of data" of R11; `b[i]` is byte `i`, byte 0 first. -/
abbrev Block := Vector Byte 16

/-- The round-key file's contents, eight words, index 0..7 (R23). -/
abbrev Schedule := Vector Word 8

end Sys2Proof
end

