-- ==== Sys2Proof/Syntax.lean ====
section
/-! DEFINITION. The commands of CORE: one constructor per row of spec/opcode_table.json (spec/30_encoding.md R84). -/

namespace Sys2Proof

/-- A decoded command. `n` is field N, a byte count (R81); `s` is field S, a rotation amount (R82). -/
inductive Instr where
  /-- R182 -/
  | nop
  /-- R112 -/
  | keyInit
  /-- R113 -/
  | keyAbsorb (n : BitVec 5)
  /-- R114 -/
  | keyFinal
  /-- R181 -/
  | streamInit
  /-- R164 -/
  | encBlock (n : BitVec 5)
  /-- R184 -/
  | encFinal (n : BitVec 5)
  /-- R165 -/
  | decBlock (n : BitVec 5)
  /-- R185 -/
  | decFinal (n : BitVec 5)
  /-- R102 -/
  | rotl (s : BitVec 5)
  /-- R103 -/
  | rotr (s : BitVec 5)
deriving DecidableEq, Repr

end Sys2Proof
end

