-- ==== Sys2Proof/WellFormed.lean ====
section
/-! DEFINITION. Which commands have an encoding: a byte count is at most 16 (spec/30_encoding.md R81). -/

namespace Sys2Proof

/-- Field N of a legal word: "N in 17..31 is an illegal encoding for every opcode" (R81). -/
def countOk (n : BitVec 5) : Bool := decide (n.toNat ≤ 16)

/-- The commands that some legal word spells (R84). Every amount S of 0..31 is legal (R82). -/
def Instr.wellFormed : Instr → Bool
  | .nop => true
  | .keyInit => true
  | .keyAbsorb n => countOk n
  | .keyFinal => true
  | .streamInit => true
  | .encBlock n => countOk n
  | .encFinal n => countOk n
  | .decBlock n => countOk n
  | .decFinal n => countOk n
  | .rotl _ => true
  | .rotr _ => true

end Sys2Proof
end

