-- ==== Sys2Proof/Decode.lean ====
section
/-! DEFINITION. Command words (spec/30_encoding.md R80 to R87): the total decoder, the encoder, and the opcode map. -/

namespace Sys2Proof

/-- Why a word is illegal (R85). The spec has one outcome, Illegal; the names are the model's, in the order R87 checks. -/
inductive Illegal where
  /-- `w[15:13]` or `w[31:21]` is not 0 (R83). -/
  | reservedBits
  /-- N in 17..31 (R81). -/
  | countTooLarge
  /-- N is not 0 and the opcode does not use it (R81). -/
  | unusedCount
  /-- S is not 0 and the opcode does not use it (R82). -/
  | unusedAmount
  /-- An opcode that is none of the eleven (R85). -/
  | unassignedOpcode
deriving DecidableEq, Repr

/-- Field OPC, bits 7:0 (R80). -/
def fieldOpc (w : Word) : BitVec 8 := w.extractLsb' 0 8

/-- Field N, bits 12:8 (R80). -/
def fieldN (w : Word) : BitVec 5 := w.extractLsb' 8 5

/-- Field RES0, bits 15:13 (R80). -/
def fieldRes0 (w : Word) : BitVec 3 := w.extractLsb' 13 3

/-- Field S, bits 20:16 (R80). -/
def fieldS (w : Word) : BitVec 5 := w.extractLsb' 16 5

/-- Field RES1, bits 31:21 (R80). -/
def fieldRes1 (w : Word) : BitVec 11 := w.extractLsb' 21 11

/-- The "need" of R87 for a command that uses neither field. -/
def needNeither (n s : BitVec 5) (i : Instr) : Except Illegal Instr :=
  if n ≠ 0 then .error .unusedCount else if s ≠ 0 then .error .unusedAmount else .ok i

/-- The "need" of R87 for a command that uses N only. -/
def needNoAmount (s : BitVec 5) (i : Instr) : Except Illegal Instr :=
  if s ≠ 0 then .error .unusedAmount else .ok i

/-- The "need" of R87 for a command that uses S only. -/
def needNoCount (n : BitVec 5) (i : Instr) : Except Illegal Instr :=
  if n ≠ 0 then .error .unusedCount else .ok i

/-- The case distinction of R87 on the opcode. -/
def decodeOpcode (opc : BitVec 8) (n s : BitVec 5) : Except Illegal Instr :=
  match opc with
  | 0x00#8 => needNeither n s .nop
  | 0x10#8 => needNeither n s .keyInit
  | 0x11#8 => needNoAmount s (.keyAbsorb n)
  | 0x12#8 => needNeither n s .keyFinal
  | 0x20#8 => needNeither n s .streamInit
  | 0x30#8 => needNoAmount s (.encBlock n)
  | 0x31#8 => needNoAmount s (.encFinal n)
  | 0x40#8 => needNoAmount s (.decBlock n)
  | 0x41#8 => needNoAmount s (.decFinal n)
  | 0x50#8 => needNoCount n (.rotl s)
  | 0x51#8 => needNoCount n (.rotr s)
  | _ => .error .unassignedOpcode

/-- `Decode(w)` of R87, total on every 32-bit word. -/
def decode (w : Word) : Except Illegal Instr :=
  if fieldRes0 w ≠ 0 ∨ fieldRes1 w ≠ 0 then .error .reservedBits
  else if 16 < (fieldN w).toNat then .error .countTooLarge
  else decodeOpcode (fieldOpc w) (fieldN w) (fieldS w)

/-- The word with these fields and reserved bits 0 (R80). -/
def commandWord (opc : BitVec 8) (n s : BitVec 5) : Word :=
  (0 : BitVec 11) ++ s ++ (0 : BitVec 3) ++ n ++ opc

/-- `enc(M)` of R89: the word of the command's row of R84. -/
def encode : Instr → Word
  | .nop => commandWord 0x00 0 0
  | .keyInit => commandWord 0x10 0 0
  | .keyAbsorb n => commandWord 0x11 n 0
  | .keyFinal => commandWord 0x12 0 0
  | .streamInit => commandWord 0x20 0 0
  | .encBlock n => commandWord 0x30 n 0
  | .encFinal n => commandWord 0x31 n 0
  | .decBlock n => commandWord 0x40 n 0
  | .decFinal n => commandWord 0x41 n 0
  | .rotl s => commandWord 0x50 0 s
  | .rotr s => commandWord 0x51 0 s

/-- One row of the opcode map of R84. -/
structure OpcodeRow where
  mnemonic : String
  usesN : Bool
  usesS : Bool
  pattern : Word
  mask : Word
deriving DecidableEq, Repr

/-- The opcode map, row by row as R84 prints it. -/
def opcodeMap : List OpcodeRow :=
  [⟨"NOP", false, false, 0x00000000, 0xFFFFFFFF⟩,
   ⟨"KEY_INIT", false, false, 0x00000010, 0xFFFFFFFF⟩,
   ⟨"KEY_ABSORB", true, false, 0x00000011, 0xFFFFE0FF⟩,
   ⟨"KEY_FINAL", false, false, 0x00000012, 0xFFFFFFFF⟩,
   ⟨"STREAM_INIT", false, false, 0x00000020, 0xFFFFFFFF⟩,
   ⟨"ENC_BLOCK", true, false, 0x00000030, 0xFFFFE0FF⟩,
   ⟨"ENC_FINAL", true, false, 0x00000031, 0xFFFFE0FF⟩,
   ⟨"DEC_BLOCK", true, false, 0x00000040, 0xFFFFE0FF⟩,
   ⟨"DEC_FINAL", true, false, 0x00000041, 0xFFFFE0FF⟩,
   ⟨"ROTL", false, true, 0x00000050, 0xFFE0FFFF⟩,
   ⟨"ROTR", false, true, 0x00000051, 0xFFE0FFFF⟩]

/-- "A word `w` spells the row's command when `(w and mask) = match` and, for rows that use N, `N <= 16`" (R84). -/
def OpcodeRow.spells (r : OpcodeRow) (w : Word) : Bool :=
  w &&& r.mask == r.pattern && (!r.usesN || countOk (fieldN w))

/-- The mnemonic of a command's row (R84). -/
def Instr.mnemonic : Instr → String
  | .nop => "NOP"
  | .keyInit => "KEY_INIT"
  | .keyAbsorb _ => "KEY_ABSORB"
  | .keyFinal => "KEY_FINAL"
  | .streamInit => "STREAM_INIT"
  | .encBlock _ => "ENC_BLOCK"
  | .encFinal _ => "ENC_FINAL"
  | .decBlock _ => "DEC_BLOCK"
  | .decFinal _ => "DEC_FINAL"
  | .rotl _ => "ROTL"
  | .rotr _ => "ROTR"

/-- A word of spec/opcode_table.json as the 32-bit word written to CMD: its low `nbits` bits, the others 0 (every
command is one 32-bit word, R80). -/
def tableWord (nbits w : Nat) : Word := BitVec.ofNat 32 (w % 2 ^ nbits)

/-- The command the decoder reads from a word of spec/opcode_table.json. -/
def decodeTableWord (nbits w : Nat) : Option Instr :=
  match decode (tableWord nbits w) with
  | .ok i => some i
  | .error _ => none

end Sys2Proof
end

