-- ==== Sys2Proof/Config.lean ====
section
/-! DEFINITION. What the spec fixes for every CORE (spec/00_scope.md R5, R6), and the values it leaves open. -/

namespace Sys2Proof.Config

/-- `BLOCK_BYTES` of R5. -/
def blockBytes : Nat := 16

/-- `NR`, the round count of R5. -/
def rounds : Nat := 8

/-- `KEYLEN_MAX` of R6 (D9). -/
def keylenMax : Nat := 2 ^ 32 - 1

/-- `BLKCNT_MAX` of R6 (D26). -/
def blkcntMax : Word := 0xFFFFFFFF

/-- FREE VALUE (R242; R29, R30). The `n`-th word no rule fixes: a result register read while BUSY = 1, or the
datapath's registers after a command has run it. No body, so no proof can see it. Log entries 6 and 7; safe. -/
opaque draw32 : Nat → Word

/-- FREE VALUE (parameter `LAT` of R6, R240). How many further steps the `n`-th accepted command keeps BUSY = 1:
finite, any value from 0 on. No body, so no proof can see it. Log entry 3; safe. -/
opaque lat : Nat → Nat

end Sys2Proof.Config
end

