-- ==== Sys2Proof/Machine/State.lean ====
section
/-! DEFINITION. The state of CORE as plain data, its reset value, and the reasons a step can stop
(spec/10_state.md; spec/70_reset_and_hazards.md R231). -/

namespace Sys2Proof.Machine

/-- Field SMODE (R24, R37). -/
inductive SMode where
  /-- no block of the stream has been processed -/
  | idle
  /-- at least one ENC_BLOCK and no final block -/
  | enc
  /-- at least one DEC_BLOCK and no final block -/
  | dec
  /-- the stream's final block has been processed -/
  | done
deriving DecidableEq, Repr

/-- Field ERR: the result code of the last completed command (R24, R201). Codes 6 to 15 are never produced. -/
inductive Err where
  | ok
  | illegal
  | length
  | padding
  | nokey
  | sequence
deriving DecidableEq, Repr

/-- The "CipherState", the four words (A, B, C, D) of the state register ST (R29, R140). -/
structure CipherState where
  a : Word
  b : Word
  c : Word
  d : Word
deriving DecidableEq, Repr

/-- What `rsp_rdata` and `rsp_err` show for the last transaction (R50). A write has no read data. -/
structure Response where
  rdata : Option Word
  err : Bool
deriving DecidableEq, Repr

/-- One statement of the host's program: a transaction of R58, `poll` or `expect ERR` of R89, or a reset (R230). -/
inductive HostStep where
  /-- `MemRead(off, 4)` -/
  | read (off : Offset)
  /-- `MemWrite(off, 4, v)` with byte enables `strb` -/
  | write (off : Offset) (strb : BitVec 4) (v : Word)
  /-- read STATUS until BUSY is clear -/
  | poll
  /-- read STATUS and assert its ERR field -/
  | expectErr (e : Err)
  /-- `rst_n = 0` -/
  | reset
deriving DecidableEq, Repr

/-- Every register of CORE but BUSY and PEND: what a completing command replaces as a whole (R241). -/
structure Regs where
  /-- input buffer `INB[0..15]` (R21) -/
  inb : Block
  /-- output buffer `OUT[0..3]` (R22) -/
  out : Vector Word 4
  /-- round-key file `RK[0..7]` (R23) -/
  rk : Schedule
  /-- STATUS.KEY_VALID (R24) -/
  keyValid : Bool
  /-- STATUS.KEY_OPEN (R24) -/
  keyOpen : Bool
  /-- STATUS.SMODE (R24, R37) -/
  smode : SMode
  /-- STATUS.ERR (R24, R38) -/
  err : Err
  /-- STATUS.LOST (R24, R243) -/
  lost : Bool
  /-- BLKCNT (R25) -/
  blkcnt : Word
  /-- PADLEN, bits 7:0 (R26) -/
  padlen : Byte
  /-- key message `KMSG` (R28); KEYLEN is its length (R27) -/
  kmsg : List Byte
  /-- state register ST (R29) -/
  st : CipherState
  /-- round counter RC (R30) -/
  rc : BitVec 3
deriving DecidableEq, Repr

/-- The machine. The last five fields are the bus side: the response port of R50 and the model's own record of the
host and of the open values (log entries 3, 4, 7, 10). -/
structure State extends Regs where
  /-- PEND: the complete registers a pending command will make visible; BUSY = 1 when present (R31) -/
  pend : Option Regs
  /-- how many further steps the pending command keeps BUSY = 1 (LAT, R240) -/
  lat : Nat
  /-- the last response on the bus (R50) -/
  rsp : Option Response
  /-- the values the host has read, oldest first, each with its offset (R250) -/
  collected : List (Offset × Word)
  /-- the host's statements still to come, next first (R20, R89) -/
  host : List HostStep
  /-- index of the next free value -/
  draws : Nat
deriving DecidableEq, Repr

/-- Why a run stops. Both are faults of the HOST PROGRAM; CORE itself never stops (R200). -/
inductive Fault where
  /-- Raised by the host's turn when CORE refuses its transaction, `rsp_err = 1` (R55, 93 items 11 and 24). Safe. -/
  | refusedTransaction (off : Offset)
  /-- Raised by the host's turn when an `expect ERR = e` does not hold (R89). Safe. -/
  | expectationFailed (expected : Err)
deriving DecidableEq, Repr

/-- Why a step has no meaning. -/
inductive Refusal where
  /-- Raised by an arm of `exec` whose command has no meaning yet; no arm raises it now. Safe. -/
  | notModelled (mnemonic : String)
deriving DecidableEq, Repr

/-- The registers right after reset (R36, R231). ST and RC are unspecified there; 0 is a DESIGN CHOICE (log entry 6). -/
def Regs.reset : Regs where
  inb := Vector.replicate 16 0
  out := Vector.replicate 4 0
  rk := Vector.replicate 8 0
  keyValid := false
  keyOpen := false
  smode := .idle
  err := .ok
  lost := false
  blkcnt := 0
  padlen := 0
  kmsg := []
  st := ⟨0, 0, 0, 0⟩
  rc := 0

/-- The machine right after reset (R36, R231): no command pending, no host statement placed (R232). -/
def State.reset : State where
  toRegs := Regs.reset
  pend := none
  lat := 0
  rsp := none
  collected := []
  host := []
  draws := 0

end Sys2Proof.Machine
end

