-- ==== Sys2Proof/Machine/Ops.lean ====
section
/-! DEFINITION. Named operations over bytes, words and the registers, and how every command ends
(spec/00_scope.md R9; spec/10_state.md R21, R22; spec/60_exceptions.md R200). -/

namespace Sys2Proof.Machine

/-- The outcome of a command or of a step. -/
abbrev Result := Host.Outcome State Fault Refusal

/-- `LE32` of R9: `b0` is the least significant byte. -/
def le32 (b0 b1 b2 b3 : Byte) : Word := b3 ++ b2 ++ b1 ++ b0

/-- `BE32` of R9: `b0` is the most significant byte. -/
def be32 (b0 b1 b2 b3 : Byte) : Word := b0 ++ b1 ++ b2 ++ b3

/-- Byte lane `j` of a word, `v[8j+7:8j]` (R53). -/
def byteLane (v : Word) (j : Nat) : Byte := v.extractLsb' (8 * j) 8

/-- STATUS.BUSY: a command is pending (R31). -/
def State.busy (s : State) : Bool := s.pend.isSome

/-- KEYLEN, "that is `len(KMSG)`" (R27). -/
def Regs.keylen (r : Regs) : Word := BitVec.ofNat 32 r.kmsg.length

/-- Register `INk` of an input buffer (R21). -/
def inWord (inb : Block) (k : Fin 4) : Word :=
  le32 inb[4 * k.val] inb[4 * k.val + 1] inb[4 * k.val + 2] inb[4 * k.val + 3]

/-- "A write of `v` to `INk` sets `INB[4k+j] <- v[8j+7:8j]` for all four `j`" (R21). -/
def setInWord (inb : Block) (k : Fin 4) (v : Word) : Block :=
  Vector.ofFn fun i => if i.val / 4 = k.val then byteLane v (i.val % 4) else inb[i]

/-- The four words of a cipher state in the order OUT holds them (R22). -/
def CipherState.words (st : CipherState) : Vector Word 4 := #v[st.a, st.b, st.c, st.d]

/-- The byte view `OUTB[4k+j] = OUT[k][8j+7:8j]` (R22). -/
def Regs.outBytes (r : Regs) : Block :=
  Vector.ofFn fun i => byteLane (r.out[i.val / 4]'(by omega)) (i.val % 4)

/-- Continue after a next state; a stop stays as it is. -/
def andThen (o : Result) (f : State → Result) : Result :=
  match o with
  | .next s => f s
  | .fault r => .fault r
  | .refused r => .refused r

/-- Every command ends by writing its result code (R200). -/
def finish (e : Err) (s : State) : Result := .next { s with err := e }

/-- `reg[ERR] <- OK`. -/
def succeed (s : State) : Result := finish .ok s

/-- `raise Error(e)` of R9: the command ends with this code and changes nothing else. CORE's only exception
mechanism: nothing is saved, no control moves, no mode changes (R208). -/
def raiseError (e : Err) (s : State) : Result := finish e s

/-- A command: its checks, then its effect (the template of spec/40_rotate.md; R207). -/
def command (failed : Option Err) (effect : State → Result) (s : State) : Result :=
  match failed with
  | some e => raiseError e s
  | none => effect s

/-- Apply a step of the datapath `n` times. -/
def iterate (f : State → State) : Nat → State → State
  | 0, s => s
  | n + 1, s => iterate f n (f s)

/-- ST and RC after a command has run the datapath: "not architectural", hence free values (R29, R30; log entry 6). -/
def State.releaseDatapath (s : State) : State :=
  { s with
    st := ⟨Config.draw32 s.draws, Config.draw32 (s.draws + 1), Config.draw32 (s.draws + 2), Config.draw32 (s.draws + 3)⟩
    rc := (Config.draw32 (s.draws + 4)).setWidth 3
    draws := s.draws + 5 }

/-- Reset (R230, R231): every register and PEND take their reset values. The host's program and what it has collected
are not CORE's, and the index of free values goes on (log entries 4, 7). -/
def State.resetCore (s : State) : State :=
  { State.reset with collected := s.collected, host := s.host, draws := s.draws }

end Sys2Proof.Machine
end

