-- ==== Sys2Proof/Machine/Operands.lean ====
section
/-! DEFINITION. The operand forms of the commands: IN0, a prefix of INB, the block, the padded block
(spec/43_block_codec.md R160, R161; spec/44_stream.md R183). -/

namespace Sys2Proof.Machine

/-- The source of ROTL and ROTR: "`INB[0..3]` read as the word `IN0`" (R102). -/
def State.in0 (s : State) : Word := inWord s.inb 0

/-- `INB[0..N)` (R113). -/
def inPrefix (inb : Block) (n : Nat) : List Byte := inb.toList.take n

/-- `Deser` of R160: four little-endian words. -/
def deser (b : Block) : CipherState where
  a := le32 b[0] b[1] b[2] b[3]
  b := le32 b[4] b[5] b[6] b[7]
  c := le32 b[8] b[9] b[10] b[11]
  d := le32 b[12] b[13] b[14] b[15]

/-- `Ser` of R161: "little-endian, in that field order". -/
def ser (st : CipherState) : Block :=
  #v[byteLane st.a 0, byteLane st.a 1, byteLane st.a 2, byteLane st.a 3,
     byteLane st.b 0, byteLane st.b 1, byteLane st.b 2, byteLane st.b 3,
     byteLane st.c 0, byteLane st.c 1, byteLane st.c 2, byteLane st.c 3,
     byteLane st.d 0, byteLane st.d 1, byteLane st.d 2, byteLane st.d 3]

/-- `padLen` for a final block of `n` plaintext bytes, `16 - n` (R183). -/
def padLength (n : Nat) : Nat := Config.blockBytes - n

/-- `PadBlock(INB, n)` of R183: `INB[0..n) ++ (byte p)^p`. -/
def padBlock (inb : Block) (n : Nat) : Block :=
  Vector.ofFn fun i => if i.val < n then inb[i] else BitVec.ofNat 8 (padLength n)

end Sys2Proof.Machine
end

