-- ==== Sys2Proof/Machine/Flags.lean ====
section
/-! DEFINITION. The status fields, the pad check, and the checks of the commands in the order of their priority
(spec/10_state.md R24; spec/44_stream.md R180, R186; spec/60_exceptions.md R201 to R207). -/

namespace Sys2Proof.Machine

/-- The value of field SMODE (R24). -/
def SMode.code : SMode → BitVec 2
  | .idle => 0
  | .enc => 1
  | .dec => 2
  | .done => 3

/-- The value of field ERR (R201). -/
def Err.code : Err → BitVec 4
  | .ok => 0
  | .illegal => 1
  | .length => 2
  | .padding => 3
  | .nokey => 4
  | .sequence => 5

/-- STATUS, field by field from bit 31 down; reserved bits read 0 (R24). -/
def State.statusWord (s : State) : Word :=
  (0 : BitVec 15) ++ BitVec.ofBool s.lost ++ (0 : BitVec 4) ++ s.err.code ++ (0 : BitVec 2) ++ s.smode.code
    ++ (0 : BitVec 1) ++ BitVec.ofBool s.keyOpen ++ BitVec.ofBool s.keyValid ++ BitVec.ofBool s.busy

/-- Field BUSY of a STATUS word (R24). -/
def statusBusy (v : Word) : Bool := v.getLsbD 0

/-- Field ERR of a STATUS word (R24). -/
def statusErr (v : Word) : BitVec 4 := v.extractLsb' 8 4

/-- The first condition that holds gives the code, "and no later check is evaluated" (R207). -/
def firstError : List (Bool × Err) → Option Err
  | [] => none
  | (holds, e) :: later => if holds then some e else firstError later

/-- N in 17..31: the form has no legal word, so ILLEGAL comes before every other check (R81, R85, R207). A command
the decoder gives never has such an N (log entry 9). -/
def illegalCount (n : BitVec 5) : Bool := !countOk n

/-- The stream modes in which ENC_BLOCK and ENC_FINAL raise SEQUENCE (R180). -/
def SMode.refusesEnc : SMode → Bool
  | .idle => false
  | .enc => false
  | .dec => true
  | .done => true

/-- The stream modes in which DEC_BLOCK and DEC_FINAL raise SEQUENCE (R180). -/
def SMode.refusesDec : SMode → Bool
  | .idle => false
  | .enc => true
  | .dec => false
  | .done => true

/-- The stream modes in which KEY_INIT raises SEQUENCE (R180). -/
def SMode.refusesKeyInit : SMode → Bool
  | .idle => false
  | .enc => true
  | .dec => true
  | .done => false

/-- The checks the four block commands share, in the order of R207. -/
def blockChecks (refused wrongCount : Bool) (n : BitVec 5) (s : State) : Option Err :=
  firstError
    [(illegalCount n, .illegal),
     (refused, .sequence),
     (!s.keyValid, .nokey),
     (wrongCount, .length),
     (s.blkcnt == Config.blkcntMax, .length)]

/-- The checks of KEY_INIT (R112). -/
def keyInitChecks (s : State) : Option Err := firstError [(s.smode.refusesKeyInit, .sequence)]

/-- The checks of KEY_ABSORB (R113). -/
def keyAbsorbChecks (n : BitVec 5) (s : State) : Option Err :=
  firstError
    [(illegalCount n, .illegal),
     (!s.keyOpen, .sequence),
     (decide (Config.keylenMax < s.kmsg.length + n.toNat), .length)]

/-- The checks of KEY_FINAL (R114). -/
def keyFinalChecks (s : State) : Option Err := firstError [(!s.keyOpen, .sequence)]

/-- `PadValid(p, total)` of R186; only the last byte is looked at (C1). -/
def padValid (p : Byte) (total : Nat) : Bool := p != 0 && decide (p.toNat ≤ total)

end Sys2Proof.Machine
end

