-- ==== Sys2Proof/Machine/Bus.lean ====
section
/-! DEFINITION. The register map of the host bus and what a register reads as (spec/20_memory.md R51 to R58;
spec/70_reset_and_hazards.md R242). -/

namespace Sys2Proof.Machine

/-- What stands at a word-aligned offset (R52). -/
inductive RegName where
  | cmd
  | status
  | blkcnt
  | padlen
  | keylen
  | inWord (k : Fin 4)
  | outWord (k : Fin 4)
  | roundKey (i : Fin 8)
  | reserved
deriving DecidableEq, Repr

/-- The access column of R52. -/
inductive Access where
  | writeOnly
  | readOnly
  | readWrite
  /-- reads 0, ignores writes -/
  | razWi
deriving DecidableEq, Repr

/-- The register map of R52; no register at an offset that is not word-aligned (R55). -/
def regAt (off : Offset) : Option RegName :=
  if off.toNat % 4 ≠ 0 then none
  else
    match off.toNat / 4 with
    | 0 => some .cmd
    | 1 => some .status
    | 2 => some .blkcnt
    | 3 => some .padlen
    | 4 => some .keylen
    | 8 => some (.inWord 0)
    | 9 => some (.inWord 1)
    | 10 => some (.inWord 2)
    | 11 => some (.inWord 3)
    | 12 => some (.outWord 0)
    | 13 => some (.outWord 1)
    | 14 => some (.outWord 2)
    | 15 => some (.outWord 3)
    | 16 => some (.roundKey 0)
    | 17 => some (.roundKey 1)
    | 18 => some (.roundKey 2)
    | 19 => some (.roundKey 3)
    | 20 => some (.roundKey 4)
    | 21 => some (.roundKey 5)
    | 22 => some (.roundKey 6)
    | 23 => some (.roundKey 7)
    | _ => some .reserved

/-- The access column of R52. -/
def RegName.access : RegName → Access
  | .cmd => .writeOnly
  | .status => .readOnly
  | .blkcnt => .readOnly
  | .padlen => .readOnly
  | .keylen => .readOnly
  | .inWord _ => .readWrite
  | .outWord _ => .readOnly
  | .roundKey _ => .readOnly
  | .reserved => .razWi

/-- The result registers, whose reads are draws while BUSY = 1 (R58, R242): the read-only ones. -/
def RegName.isResult (r : RegName) : Bool := r.access == .readOnly

/-- What a register reads as while BUSY = 0 (R52, R56): CMD and reserved offsets read 0. -/
def State.regValue (s : State) : RegName → Word
  | .cmd => 0
  | .status => s.statusWord
  | .blkcnt => s.blkcnt
  | .padlen => s.padlen.setWidth 32
  | .keylen => s.keylen
  | .inWord k => inWord s.inb k
  | .outWord k => s.out[k]
  | .roundKey i => s.rk[i]
  | .reserved => 0

/-- STATUS while BUSY = 1: BUSY reads 1, LOST its value, every other bit is the draw's (R242; log entry 7). -/
def busyStatus (lost : Bool) (draw : Word) : Word :=
  draw.extractLsb' 17 15 ++ BitVec.ofBool lost ++ draw.extractLsb' 1 15 ++ (1 : BitVec 1)

/-- What a result register reads as while BUSY = 1 (R242). -/
def State.drawnValue (s : State) (r : RegName) : Word :=
  if r = .status then busyStatus s.lost (Config.draw32 s.draws) else Config.draw32 s.draws

/-- `MemRead` of an aligned offset (R58): the value, and the state after. Only the index of free values can move;
reads have no side effect on any register (R57). -/
def readReg (r : RegName) (s : State) : Word × State :=
  if s.busy && r.isResult then (s.drawnValue r, { s with draws := s.draws + 1 }) else (s.regValue r, s)

/-- The answer to a transaction CORE takes: `rsp_err = 0` (R56). -/
def answered (v : Option Word) (s : State) : State := { s with rsp := some ⟨v, false⟩ }

/-- The answer to a refused transaction: `rsp_err = 1`, "no register changes, and a read returns 0" (R55). -/
def refusedBus (v : Option Word) (s : State) : State := { s with rsp := some ⟨v, true⟩ }

/-- The value and the state after a host read, refused or not (R58). -/
def memRead (off : Offset) (s : State) : Word × State :=
  match regAt off with
  | none => (0, refusedBus (some 0) s)
  | some r => ((readReg r s).1, answered (some (readReg r s).1) (readReg r s).2)

/-- Did CORE refuse the last transaction (R55)? -/
def State.wasRefused (s : State) : Bool :=
  match s.rsp with
  | some r => r.err
  | none => false

end Sys2Proof.Machine
end

