-- ==== Sys2Proof/Machine/Rotator.lean ====
section
/-! DEFINITION. The 32-bit bit-rotator and the commands ROTL and ROTR (spec/40_rotate.md R100 to R103). -/

namespace Sys2Proof.Machine

/-- `rotl32` of R100. -/
def rotl32 (v : Word) (s : Nat) : Word :=
  if s % 32 = 0 then v else v <<< (s % 32) ||| v >>> (32 - s % 32)

/-- `rotr32` of R101. -/
def rotr32 (v : Word) (s : Nat) : Word :=
  if s % 32 = 0 then v else v >>> (s % 32) ||| v <<< (32 - s % 32)

/-- OUT0 takes the rotated word, OUT1..OUT3 become 0 (R102, R103). -/
def State.putRotated (s : State) (v : Word) : State := { s with out := #v[v, 0, 0, 0] }

/-- ROTL (R102). -/
def execRotl (amount : BitVec 5) (s : State) : Result := succeed (s.putRotated (rotl32 s.in0 amount.toNat))

/-- ROTR (R103). -/
def execRotr (amount : BitVec 5) (s : State) : Result := succeed (s.putRotated (rotr32 s.in0 amount.toNat))

end Sys2Proof.Machine
end

