-- ==== Sys2Proof/Machine/Sha256.lean ====
section
/-! DEFINITION. SHA-256 as the spec transcribes it (spec/41_key_schedule.md R120 to R127; log entry 12). -/

namespace Sys2Proof.Machine

/-- `BE64(x)` of R120: the 8 bytes of `x`, most significant first. -/
def be64Bytes (x : Nat) : List Byte :=
  [56, 48, 40, 32, 24, 16, 8, 0].map fun sh => (BitVec.ofNat 64 x).extractLsb' sh 8

/-- The number of zero bytes of R120: the least `k` with `(L + 1 + k) mod 64 = 56`. -/
def shaZeros (len : Nat) : Nat := (119 - len % 64) % 64

/-- The padded message of R120. -/
def shaPad (m : List Byte) : List Byte :=
  m ++ [0x80] ++ List.replicate (shaZeros m.length) 0 ++ be64Bytes (8 * m.length)

/-- Big-endian words of a byte list, four bytes each (R121). -/
def be32Words : List Byte → List Word
  | b0 :: b1 :: b2 :: b3 :: rest => be32 b0 b1 b2 b3 :: be32Words rest
  | _ => []

/-- `n` blocks of 64 bytes, each as its sixteen words (R121). -/
def shaBlocks : Nat → List Byte → List (List Word)
  | 0, _ => []
  | n + 1, p => be32Words (p.take 64) :: shaBlocks n (p.drop 64)

/-- `Ch` of R122. -/
def shaCh (x y z : Word) : Word := (x &&& y) ^^^ (~~~x &&& z)

/-- `Maj` of R122. -/
def shaMaj (x y z : Word) : Word := (x &&& y) ^^^ (x &&& z) ^^^ (y &&& z)

/-- `BSIG0` of R122. -/
def shaBsig0 (x : Word) : Word := rotr32 x 2 ^^^ rotr32 x 13 ^^^ rotr32 x 22

/-- `BSIG1` of R122. -/
def shaBsig1 (x : Word) : Word := rotr32 x 6 ^^^ rotr32 x 11 ^^^ rotr32 x 25

/-- `SSIG0` of R122. -/
def shaSsig0 (x : Word) : Word := rotr32 x 7 ^^^ rotr32 x 18 ^^^ x >>> 3

/-- `SSIG1` of R122. -/
def shaSsig1 (x : Word) : Word := rotr32 x 17 ^^^ rotr32 x 19 ^^^ x >>> 10

/-- The constants `K[0..63]` of R123, row by row. -/
def shaK : List Word :=
  [0x428a2f98, 0x71374491, 0xb5c0fbcf, 0xe9b5dba5, 0x3956c25b, 0x59f111f1, 0x923f82a4, 0xab1c5ed5] ++
  [0xd807aa98, 0x12835b01, 0x243185be, 0x550c7dc3, 0x72be5d74, 0x80deb1fe, 0x9bdc06a7, 0xc19bf174] ++
  [0xe49b69c1, 0xefbe4786, 0x0fc19dc6, 0x240ca1cc, 0x2de92c6f, 0x4a7484aa, 0x5cb0a9dc, 0x76f988da] ++
  [0x983e5152, 0xa831c66d, 0xb00327c8, 0xbf597fc7, 0xc6e00bf3, 0xd5a79147, 0x06ca6351, 0x14292967] ++
  [0x27b70a85, 0x2e1b2138, 0x4d2c6dfc, 0x53380d13, 0x650a7354, 0x766a0abb, 0x81c2c92e, 0x92722c85] ++
  [0xa2bfe8a1, 0xa81a664b, 0xc24b8b70, 0xc76c51a3, 0xd192e819, 0xd6990624, 0xf40e3585, 0x106aa070] ++
  [0x19a4c116, 0x1e376c08, 0x2748774c, 0x34b0bcb5, 0x391c0cb3, 0x4ed8aa4a, 0x5b9cca4f, 0x682e6ff3] ++
  [0x748f82ee, 0x78a5636f, 0x84c87814, 0x8cc70208, 0x90befffa, 0xa4506ceb, 0xbef9a3f7, 0xc67178f2]

/-- The working variables, and a chaining value, of R126. -/
structure ShaVars where
  a : Word
  b : Word
  c : Word
  d : Word
  e : Word
  f : Word
  g : Word
  h : Word
deriving DecidableEq, Repr

/-- The initial chaining value of R124. -/
def shaInit : ShaVars :=
  ⟨0x6a09e667, 0xbb67ae85, 0x3c6ef372, 0xa54ff53a, 0x510e527f, 0x9b05688c, 0x1f83d9ab, 0x5be0cd19⟩

/-- `W[t]` of R125 from the words before it, the last one first. -/
def shaNextWord (before : List Word) : Word :=
  shaSsig1 (before.getD 1 0) + before.getD 6 0 + shaSsig0 (before.getD 14 0) + before.getD 15 0

/-- `n` further words of the message schedule, on words held last first. -/
def shaExtend : Nat → List Word → List Word
  | 0, ws => ws
  | n + 1, ws => shaExtend n (shaNextWord ws :: ws)

/-- `W[0..63]` of R125. -/
def shaSchedule (block : List Word) : List Word := (shaExtend 48 block.reverse).reverse

/-- One round `t` of R126 with `kw = (K[t], W[t])`. -/
def shaStep (v : ShaVars) (kw : Word × Word) : ShaVars :=
  let t1 := v.h + shaBsig1 v.e + shaCh v.e v.f v.g + kw.1 + kw.2
  let t2 := shaBsig0 v.a + shaMaj v.a v.b v.c
  { a := t1 + t2, b := v.a, c := v.b, d := v.c, e := v.d + t1, f := v.e, g := v.f, h := v.g }

/-- The last line of R126: word-wise sum with the chaining value. -/
def ShaVars.add (x y : ShaVars) : ShaVars :=
  ⟨x.a + y.a, x.b + y.b, x.c + y.c, x.d + y.d, x.e + y.e, x.f + y.f, x.g + y.g, x.h + y.h⟩

/-- Compression of one block (R126). -/
def shaCompress (hv : ShaVars) (block : List Word) : ShaVars :=
  ((shaK.zip (shaSchedule block)).foldl shaStep hv).add hv

/-- The final chaining value `H(n)` (R126, R127). -/
def shaChain (m : List Byte) : ShaVars :=
  (shaBlocks ((shaPad m).length / 64) (shaPad m)).foldl shaCompress shaInit

/-- The words `H_0..H_7` of a chaining value. -/
def ShaVars.words (v : ShaVars) : Vector Word 8 := #v[v.a, v.b, v.c, v.d, v.e, v.f, v.g, v.h]

/-- `SHA256(m)`: 32 bytes, each word most significant byte first (R127). -/
def sha256 (m : List Byte) : Vector Byte 32 :=
  Vector.ofFn fun i => byteLane ((shaChain m).words[i.val / 4]'(by omega)) (3 - i.val % 4)

end Sys2Proof.Machine
end

