-- ==== Sys2Proof/Machine/KeySchedule.lean ====
section
/-! DEFINITION. The key schedule and the commands KEY_INIT, KEY_ABSORB, KEY_FINAL (spec/41_key_schedule.md R110 to R114). -/

namespace Sys2Proof.Machine

/-- `Schedule(key)` of R111: the digest's eight big-endian words. -/
def schedule (key : List Byte) : Schedule :=
  Vector.ofFn fun i =>
    be32 (sha256 key)[4 * i.val] (sha256 key)[4 * i.val + 1] (sha256 key)[4 * i.val + 2] (sha256 key)[4 * i.val + 3]

/-- KEY_INIT (R112). -/
def execKeyInit (s : State) : Result :=
  command (keyInitChecks s)
    (fun s => succeed { s with kmsg := [], rk := Vector.replicate 8 0, keyValid := false, keyOpen := true }) s

/-- KEY_ABSORB n (R113). -/
def execKeyAbsorb (n : BitVec 5) (s : State) : Result :=
  command (keyAbsorbChecks n s) (fun s => succeed { s with kmsg := s.kmsg ++ inPrefix s.inb n.toNat }) s

/-- KEY_FINAL (R114). -/
def execKeyFinal (s : State) : Result :=
  command (keyFinalChecks s)
    (fun s => succeed { s with rk := schedule s.kmsg, keyValid := true, keyOpen := false }) s

end Sys2Proof.Machine
end

