-- ==== Sys2Proof/Machine/Round.lean ====
section
/-! DEFINITION. The round datapath: one round, its inverse, the round-key multiplexer, the two loops, and the same
loops as they run on ST and RC (spec/42_round.md R140 to R147; spec/10_state.md R29, R30). -/

namespace Sys2Proof.Machine

/-- `Round(st, rk)` of R142, steps 2 to 6 in order. -/
def roundFn (st : CipherState) (rk : Word) : CipherState :=
  let a := st.a ^^^ rk
  let b := st.b + a
  let c := rotl32 (st.c ^^^ b) 3
  let d := rotr32 (st.d + c) 2
  ⟨c, b, a, d⟩

/-- `InvRound(st, rk)` of R143, steps 1 to 5 in order. -/
def invRoundFn (st : CipherState) (rk : Word) : CipherState :=
  let a := st.c
  let c := st.a
  let d := rotl32 st.d 2 - c
  let c := rotr32 c 3 ^^^ st.b
  let b := st.b - a
  let a := a ^^^ rk
  ⟨a, b, c, d⟩

/-- The round-key multiplexer: round `r` uses `RK[r mod 8]` (R141). -/
def roundKey (rk : Schedule) (r : Nat) : Word := rk[r % 8]

/-- Rounds `0, 1, ..., n-1` (R146). -/
def encRoundsUpTo (rk : Schedule) : Nat → CipherState → CipherState
  | 0, st => st
  | n + 1, st => roundFn (encRoundsUpTo rk n st) (roundKey rk n)

/-- `EncRounds` of R146. -/
def encRounds (rk : Schedule) (st : CipherState) : CipherState := encRoundsUpTo rk Config.rounds st

/-- Inverse rounds `n-1, ..., 1, 0` (R147). -/
def decRoundsFrom (rk : Schedule) : Nat → CipherState → CipherState
  | 0, st => st
  | n + 1, st => decRoundsFrom rk n (invRoundFn st (roundKey rk n))

/-- `DecRounds` of R147. -/
def decRounds (rk : Schedule) (st : CipherState) : CipherState := decRoundsFrom rk Config.rounds st

/-- "loaded from the deserialised input at the start of every block command" (R29), with RC at the first round. -/
def State.loadDatapath (s : State) (b : Block) (rc : BitVec 3) : State := { s with st := deser b, rc := rc }

/-- One encryption round on ST: RC selects the round key (R30), then counts up. -/
def State.encStep (s : State) : State :=
  { s with st := roundFn s.st (roundKey s.rk s.rc.toNat), rc := s.rc + 1 }

/-- One decryption round on ST: RC selects the round key (R30), then counts down. -/
def State.decStep (s : State) : State :=
  { s with st := invRoundFn s.st (roundKey s.rk s.rc.toNat), rc := s.rc - 1 }

/-- Load ST with the block and run the 8 rounds forward, RC = 0 to 7 (R29, R30, R146). -/
def State.runEnc (s : State) (b : Block) : State := iterate State.encStep Config.rounds (s.loadDatapath b 0)

/-- Load ST with the block and run the 8 inverse rounds, RC = 7 down to 0 (R29, R30, R147). -/
def State.runDec (s : State) (b : Block) : State := iterate State.decStep Config.rounds (s.loadDatapath b 7)

/-- "copied to `OUT[0..3]` at completion" (R29, R22). -/
def State.captureOut (s : State) : State := { s with out := s.st.words }

end Sys2Proof.Machine
end

