-- ==== Sys2Proof/Machine/BlockCodec.lean ====
section
/-! DEFINITION. The block codec and the commands ENC_BLOCK and DEC_BLOCK (spec/43_block_codec.md R162 to R165). -/

namespace Sys2Proof.Machine

/-- `EncBlock(b)` of R162, under the schedule `rk`. -/
def encBlock (rk : Schedule) (b : Block) : Block := ser (encRounds rk (deser b))

/-- `DecBlock(b)` of R163, under the schedule `rk`. -/
def decBlock (rk : Schedule) (b : Block) : Block := ser (decRounds rk (deser b))

/-- One more block of the stream (R25), which is now in this mode (R180). -/
def State.countBlock (s : State) (m : SMode) : State := { s with blkcnt := s.blkcnt + 1, smode := m }

/-- ENC_BLOCK (R164). -/
def execEncBlock (n : BitVec 5) (s : State) : Result :=
  command (blockChecks s.smode.refusesEnc (n != 16) n s)
    (fun s => succeed (((s.runEnc s.inb).captureOut.countBlock .enc).releaseDatapath)) s

/-- DEC_BLOCK (R165). -/
def execDecBlock (n : BitVec 5) (s : State) : Result :=
  command (blockChecks s.smode.refusesDec (n != 16) n s)
    (fun s => succeed (((s.runDec s.inb).captureOut.countBlock .dec).releaseDatapath)) s

end Sys2Proof.Machine
end

