-- ==== Sys2Proof/Machine/Stream.lean ====
section
/-! DEFINITION. The stream sequencer and padder: NOP, STREAM_INIT, ENC_FINAL, DEC_FINAL
(spec/44_stream.md R181, R182, R184, R185). -/

namespace Sys2Proof.Machine

/-- NOP (R182). -/
def execNop (s : State) : Result := succeed s

/-- STREAM_INIT (R181). -/
def execStreamInit (s : State) : Result := succeed { s with smode := .idle, blkcnt := 0, padlen := 0 }

/-- ENC_FINAL n (R184). -/
def execEncFinal (n : BitVec 5) (s : State) : Result :=
  command (blockChecks s.smode.refusesEnc (n == 16) n s)
    (fun s =>
      let t := ((s.runEnc (padBlock s.inb n.toNat)).captureOut.countBlock .done).releaseDatapath
      succeed { t with padlen := BitVec.ofNat 8 (padLength n.toNat) }) s

/-- The part of DEC_FINAL after decryption (R185): ST holds the block, whose last byte is the pad length; `total` is the
stream's exact decrypted length. An invalid pad clears OUT and raises PADDING, "the writes above are kept". -/
def finishDecFinal (s : State) : Result :=
  let p := (ser s.st)[15]
  let total := 16 * (s.blkcnt + 1).toNat
  let t := { (s.countBlock .done).releaseDatapath with padlen := p }
  if padValid p total then succeed { t with out := s.st.words }
  else raiseError .padding { t with out := Vector.replicate 4 0 }

/-- DEC_FINAL (R185). -/
def execDecFinal (n : BitVec 5) (s : State) : Result :=
  command (blockChecks s.smode.refusesDec (n != 16) n s) (fun s => finishDecFinal (s.runDec s.inb)) s

end Sys2Proof.Machine
end

