-- ==== Sys2Proof/Machine/Dispatch.lean ====
section
/-! DEFINITION. `Exec` of spec/70_reset_and_hazards.md R240: one arm per command. -/

namespace Sys2Proof.Machine

def exec (i : Instr) (s : State) : Host.Outcome State Fault Refusal :=
  match i with
  | .nop => Sys2Proof.Machine.execNop s
  | .keyInit => Sys2Proof.Machine.execKeyInit s
  | .keyAbsorb n => Sys2Proof.Machine.execKeyAbsorb n s
  | .keyFinal => Sys2Proof.Machine.execKeyFinal s
  | .streamInit => Sys2Proof.Machine.execStreamInit s
  | .encBlock n => Sys2Proof.Machine.execEncBlock n s
  | .encFinal n => Sys2Proof.Machine.execEncFinal n s
  | .decBlock n => Sys2Proof.Machine.execDecBlock n s
  | .decFinal n => Sys2Proof.Machine.execDecFinal n s
  | .rotl amount => Sys2Proof.Machine.execRotl amount s
  | .rotr amount => Sys2Proof.Machine.execRotr amount s

end Sys2Proof.Machine
end

