-- ==== Sys2Proof/Machine/Handshake.lean ====
section
/-! DEFINITION. Acceptance and completion of commands, host writes, the host's turn, and one step of the machine
(spec/70_reset_and_hazards.md R230 to R243; spec/20_memory.md R58; spec/30_encoding.md R89). -/

namespace Sys2Proof.Machine

/-- `Exec(S, Decode(w))` of R240: the command's rule, or ERR = ILLEGAL (R202). -/
def execWord (w : Word) (s : State) : Result :=
  match decode w with
  | .ok i => exec i s
  | .error _ => raiseError .illegal s

/-- `Accept(w)` of R240: LOST is cleared, the command runs on the state at acceptance, its registers wait in PEND, and
LAT is drawn. -/
def accept (w : Word) (s : State) : Result :=
  andThen (execWord w { s with lost := false }) fun t =>
    .next { s with lost := false, pend := some t.toRegs, lat := Config.lat t.draws, draws := t.draws + 1 }

/-- `Complete` of R241: every register becomes the pending one, but LOST, which stays. -/
def complete (r : Regs) (s : State) : State :=
  { s with toRegs := { r with lost := s.lost }, pend := none }

/-- A write that CORE takes, by register (R56 to R58, R243). -/
def writeReg (r : RegName) (v : Word) (s : State) : Result :=
  match r with
  | .cmd => if s.busy then .next { s with lost := true } else accept v s
  | .inWord k => if s.busy then .next { s with lost := true } else .next { s with inb := setInWord s.inb k v }
  | .status => .next s
  | .blkcnt => .next s
  | .padlen => .next s
  | .keylen => .next s
  | .outWord _ => .next s
  | .roundKey _ => .next s
  | .reserved => .next s

/-- `MemWrite(off, 4, v)` with byte enables `strb`, refused or not (R55, R58). -/
def memWrite (off : Offset) (strb : BitVec 4) (v : Word) (s : State) : Result :=
  match regAt off with
  | none => .next (refusedBus none s)
  | some r => if strb = 0b1111 then andThen (writeReg r v s) fun t => .next (answered none t) else .next (refusedBus none s)

/-- "In the model a refused transaction is a fault of the host program" (R55; log entry 2). -/
def faultIfRefused (off : Offset) (s : State) : Result :=
  if s.wasRefused then .fault (.refusedTransaction off) else .next s

/-- A host read whose value the host keeps (R250). -/
def hostRead (off : Offset) (s : State) : Word × State :=
  ((memRead off s).1, { (memRead off s).2 with collected := s.collected ++ [(off, (memRead off s).1)] })

/-- The offset of STATUS (R52). -/
def statusOffset : Offset := 0x04

/-- One statement of the host's program, already taken off `host` (R58, R89, R230). A `poll` that reads BUSY = 1 stays. -/
def hostStep (h : HostStep) (s : State) : Result :=
  match h with
  | .read off => faultIfRefused off (hostRead off s).2
  | .write off strb v => andThen (memWrite off strb v s) (faultIfRefused off)
  | .poll =>
      let t := (hostRead statusOffset s).2
      if statusBusy (hostRead statusOffset s).1 then .next { t with host := .poll :: t.host } else .next t
  | .expectErr e =>
      if statusErr (hostRead statusOffset s).1 = e.code then .next (hostRead statusOffset s).2
      else .fault (.expectationFailed e)
  | .reset => .next s.resetCore

/-- The host's turn: its next statement, or nothing. With no command pending and no statement CORE "is idle with all
state retained" (R217). -/
def hostTurn (s : State) : Result :=
  match s.host with
  | [] => .next s
  | h :: rest => hostStep h { s with host := rest }

/-- One step. A pending command whose LAT has run out completes; otherwise the host takes its turn, and LAT counts
down if a command is pending (R20, R240, R241; log entry 3). -/
def advance (s : State) : Result :=
  match s.pend with
  | none => hostTurn s
  | some r => if s.lat = 0 then .next (complete r s) else hostTurn { s with lat := s.lat - 1 }

/-- The offset of CMD (R52). -/
def cmdOffset : Offset := 0x00

/-- The host's next statement writes this word to CMD, and CORE is free to accept it (R240; log entry 13). -/
def placeCommand (w : Word) (s : State) : State :=
  { s with pend := none, host := .write cmdOffset 0b1111 w :: s.host }

end Sys2Proof.Machine
end

