-- ==== Sys2Proof/Machine/Step.lean ====
section
/-! DEFINITION. One step of the machine, and the placing of a command as the next thing a step runs. -/

namespace Sys2Proof.Machine

/-- One step (R20): the completion of a command, or the host's next statement. -/
def step (s : State) : Host.Outcome State Fault Refusal := advance s

/-- `s` with this command word as the host's next write to CMD, and no command pending, so that the next step accepts
and runs it (log entry 13). CORE fetches nothing (R34): the host's writes are its program. -/
def State.withFetchWord (s : State) (nbits w : Nat) : State := placeCommand (tableWord nbits w) s

end Sys2Proof.Machine
end

