-- ==== Sys2Proof/Machine/Cipher.lean ====
section
/-! DEFINITION. `Encrypt` and `Decrypt` on whole byte sequences, the functions the host procedures compute
(spec/44_stream.md R183, R186, R187; spec/60_exceptions.md R201). -/

namespace Sys2Proof.Machine

/-- The two errors of the source that CORE generates, by their names of R201 (C7). -/
inductive CipherError where
  /-- the ciphertext is not a positive multiple of 16 bytes -/
  | invalidCiphertextLength
  /-- the trailing pad-length byte is 0 or exceeds the decrypted length -/
  | invalidPadding
deriving DecidableEq, Repr

/-- The first 16 bytes of a sequence as a block; bytes it lacks are 0. -/
def blockOf (l : List Byte) : Block := Vector.ofFn fun i => l.getD i.val 0

/-- The first `q` blocks of a byte sequence. -/
def blocksOf : Nat → List Byte → List Block
  | 0, _ => []
  | q + 1, l => blockOf l :: blocksOf q (l.drop 16)

/-- The padded plaintext of R183: "append `padLen` bytes, each equal to `padLen`". -/
def padStream (p : List Byte) : List Byte :=
  p ++ List.replicate (padLength (p.length % 16)) (BitVec.ofNat 8 (padLength (p.length % 16)))

/-- Apply a block function to each 16-byte block "independently (ECB — no chaining, no IV)" (R166). -/
def mapBlocks (f : Block → Block) (l : List Byte) : List Byte :=
  (blocksOf (l.length / 16) l).flatMap fun b => (f b).toList

/-- `Encrypt(P)`: "pad the whole plaintext, split into blocks, `EncBlock` each, concatenate" (R187). -/
def encryptStream (rk : Schedule) (p : List Byte) : List Byte := mapBlocks (encBlock rk) (padStream p)

/-- `Decrypt(C)`: length check, `DecBlock` each, pad check on the last byte, truncation (R186, R187). -/
def decryptStream (rk : Schedule) (c : List Byte) : Except CipherError (List Byte) :=
  if c.length = 0 ∨ c.length % 16 ≠ 0 then .error .invalidCiphertextLength
  else
    let x := mapBlocks (decBlock rk) c
    let p := x.getLastD 0
    if padValid p x.length then .ok (x.take (x.length - p.toNat)) else .error .invalidPadding

end Sys2Proof.Machine
end

