-- ==== Sys2Proof/Machine/HostProgram.lean ====
section
/-! DEFINITION. The host-program notation of spec/30_encoding.md R89, expanded into host statements, and the host
procedures of spec/44_stream.md R188 and R189 and spec/41_key_schedule.md R115. -/

namespace Sys2Proof.Machine

/-- `wr OFF, V` (R89). -/
def wr (off : Offset) (v : Word) : HostStep := .write off 0b1111 v

/-- `cmd M` (R89). -/
def cmd (i : Instr) : HostStep := wr cmdOffset (encode i)

/-- `do M` (R89): `cmd M` then `poll`. -/
def doCmd (i : Instr) : List HostStep := [cmd i, .poll]

/-- `ldin V0, V1, V2, V3` (R89). -/
def ldin (v0 v1 v2 v3 : Word) : List HostStep := [wr 0x20 v0, wr 0x24 v1, wr 0x28 v2, wr 0x2C v3]

/-- `ldin` of a block as four little-endian words (R188). -/
def ldBlock (b : Block) : List HostStep := ldin (deser b).a (deser b).b (deser b).c (deser b).d

/-- `rdout` (R89). -/
def rdout : List HostStep := [.read 0x30, .read 0x34, .read 0x38, .read 0x3C]

/-- A full block of N: the N that ENC_BLOCK, DEC_BLOCK and DEC_FINAL require (R88). -/
def fullCount : BitVec 5 := 16

/-- `do M` followed by `expect ERR = OK`, as R188 has it when a key is loaded. -/
def doOk (i : Instr) : List HostStep := doCmd i ++ [.expectErr .ok]

/-- Load, process and read back `q` full blocks of `l` in order; `run` is the command that processes one (R188 to R190). -/
def blocksProc (run : List HostStep) : Nat → List Byte → List HostStep
  | 0, _ => []
  | q + 1, l => ldBlock (blockOf l) ++ run ++ rdout ++ blocksProc run q (l.drop 16)

/-- The procedure `Encrypt(P)` of R188; the last chunk's other bytes ("any") are 0 here. -/
def encryptProc (p : List Byte) : List HostStep :=
  doOk .streamInit ++ blocksProc (doOk (.encBlock fullCount)) (p.length / 16) p
    ++ ldBlock (blockOf (p.drop (16 * (p.length / 16)))) ++ doOk (.encFinal (BitVec.ofNat 5 (p.length % 16))) ++ rdout

/-- `q` of R189. -/
def decryptBlocks (c : List Byte) : Nat := max 1 ((c.length + 15) / 16)

/-- The procedure `Decrypt(C)` of R189, with the reads of STATUS and PADLEN that its last three lines use. -/
def decryptProc (c : List Byte) : List HostStep :=
  doCmd .streamInit ++ blocksProc (doCmd (.decBlock fullCount)) (decryptBlocks c - 1) c
    ++ ldBlock (blockOf (c.drop (16 * (decryptBlocks c - 1))))
    ++ doCmd (.decFinal (BitVec.ofNat 5 (c.length - 16 * (decryptBlocks c - 1)))) ++ rdout
    ++ [.read 0x0C, .read statusOffset]

/-- `key` absorbed 16 bytes at a time in `q` full pieces (R113, R233). -/
def absorbProc : Nat → List Byte → List HostStep
  | 0, _ => []
  | q + 1, l => ldBlock (blockOf l) ++ doCmd (.keyAbsorb fullCount) ++ absorbProc q (l.drop 16)

/-- The key load `KEY_INIT; KEY_ABSORB ...; KEY_FINAL` of R115 and R233. -/
def keyProc (key : List Byte) : List HostStep :=
  doCmd .keyInit ++ absorbProc (key.length / 16) key
    ++ ldBlock (blockOf (key.drop (16 * (key.length / 16)))) ++ doCmd (.keyAbsorb (BitVec.ofNat 5 (key.length % 16)))
    ++ doCmd .keyFinal

/-- The four bytes of a word in lane order (R53). -/
def laneBytes (v : Word) : List Byte := [byteLane v 0, byteLane v 1, byteLane v 2, byteLane v 3]

/-- `Ser(C_0) ++ Ser(C_1) ++ ...` of R188 and R189: the bytes of every OUT word the host read, in the order of its reads. -/
def outBytesRead (reads : List (Offset × Word)) : List Byte :=
  reads.flatMap fun r => if 0x30 ≤ r.1.toNat ∧ r.1.toNat ≤ 0x3C then laneBytes r.2 else []

/-- The value of the last read of an offset, 0 if there was none. -/
def lastRead (off : Offset) (reads : List (Offset × Word)) : Word :=
  ((reads.filter fun r => r.1 == off).map Prod.snd).getLastD 0

/-- The last three lines of R189, from the values the host collected. -/
def decryptAnswer (reads : List (Offset × Word)) : Except CipherError (List Byte) :=
  if statusErr (lastRead statusOffset reads) = Err.length.code then .error .invalidCiphertextLength
  else if statusErr (lastRead statusOffset reads) = Err.padding.code then .error .invalidPadding
  else .ok ((outBytesRead reads).take ((outBytesRead reads).length - (lastRead 0x0C reads).toNat))

end Sys2Proof.Machine
end

