-- ==== Sys2Proof/Safety.lean ====
section
/-! DEFINITION. What claims are stated in: the invariants of the registers, the stream table, the host that keeps its
duties, and the end of a run (spec/10_state.md R35, R37; spec/44_stream.md R180; spec/70_reset_and_hazards.md R244, R250). -/

namespace Sys2Proof.Machine

/-- A stream in SMODE ENC or DEC is in progress (R37). -/
def SMode.inProgress (m : SMode) : Prop := m = .enc ∨ m = .dec

/-- What holds of the registers between commands. -/
structure RegsInv (r : Regs) : Prop where
  /-- "`KEY_VALID = 1` and `KEY_OPEN = 1` never hold together" (R35) -/
  keyStates : ¬ (r.keyValid = true ∧ r.keyOpen = true)
  /-- "a stream cannot enter ENC or DEC without KEY_VALID = 1" (R114) -/
  streamKeyed : r.smode.inProgress → r.keyValid = true
  /-- "a byte sequence of length 0 to `KEYLEN_MAX`" (R28) -/
  keyBounded : r.kmsg.length ≤ Config.keylenMax
  /-- "`RK` depends only on `KMSG`" (R115, R114) -/
  keyLoaded : r.keyValid = true → r.rk = schedule r.kmsg
  /-- RK is written only by KEY_INIT, which clears it, and KEY_FINAL (R23) -/
  keyCleared : r.keyValid = false → r.rk = Vector.replicate 8 0
  /-- key state NONE is only "after reset" (R35), where KMSG is empty (R28) -/
  keyNone : r.keyValid = false → r.keyOpen = false → r.kmsg = []
  /-- in IDLE "no block of it has been processed" (R37) -/
  idleCount : r.smode = .idle → r.blkcnt = 0
  /-- in ENC, DEC and DONE at least one block has been processed (R37), and the count never wraps (R25) -/
  countPositive : r.smode ≠ .idle → r.blkcnt ≠ 0
  /-- PADLEN is written by the final commands, and cleared by STREAM_INIT and reset (R26) -/
  padOnlyDone : r.smode ≠ .done → r.padlen = 0

/-- What holds of the machine between steps: the registers are sound, and so is what a pending command will make
visible; that command does not change INB (R21), starts from LOST = 0 (R240), and keeps a stream's schedule (R64). -/
structure MachineInv (s : State) : Prop where
  now : RegsInv s.toRegs
  later : ∀ r, s.pend = some r → RegsInv r
  input : ∀ r, s.pend = some r → r.inb = s.inb
  lostClear : ∀ r, s.pend = some r → r.lost = false
  oneSchedule : ∀ r, s.pend = some r → s.smode.inProgress → r.rk = s.rk

/-- The table of R180: SMODE after a command that is let through, `none` where it raises SEQUENCE. -/
def smodeAfter : Instr → SMode → Option SMode
  | .encBlock _, .idle => some .enc
  | .encBlock _, .enc => some .enc
  | .encBlock _, .dec => none
  | .encBlock _, .done => none
  | .encFinal _, .idle => some .done
  | .encFinal _, .enc => some .done
  | .encFinal _, .dec => none
  | .encFinal _, .done => none
  | .decBlock _, .idle => some .dec
  | .decBlock _, .enc => none
  | .decBlock _, .dec => some .dec
  | .decBlock _, .done => none
  | .decFinal _, .idle => some .done
  | .decFinal _, .enc => none
  | .decFinal _, .dec => some .done
  | .decFinal _, .done => none
  | .streamInit, _ => some .idle
  | .keyInit, .idle => some .idle
  | .keyInit, .enc => none
  | .keyInit, .dec => none
  | .keyInit, .done => some .done
  | .nop, m => some m
  | .keyAbsorb _, m => some m
  | .keyFinal, m => some m
  | .rotl _, m => some m
  | .rotr _, m => some m

/-- A statement CORE never refuses: a full word at an aligned offset (R55). -/
def HostStep.aligned : HostStep → Bool
  | .read off => off.toNat % 4 == 0
  | .write off strb _ => off.toNat % 4 == 0 && strb == 0b1111
  | .poll => true
  | .expectErr _ => true
  | .reset => true

/-- A statement the host must not make while a command may be pending: a write of CMD or IN, or a read of a result
register other than STATUS's BUSY (R244). -/
def HostStep.needsIdle : HostStep → Bool
  | .read off =>
    match regAt off with
    | some r => r.isResult && r != .status
    | none => false
  | .write off _ _ =>
    match regAt off with
    | some .cmd => true
    | some (.inWord _) => true
    | _ => false
  | .poll => false
  | .expectErr _ => true
  | .reset => false

/-- A write to CMD, after which a command may be pending. -/
def HostStep.issues : HostStep → Bool
  | .write off _ _ => regAt off == some .cmd
  | _ => false

/-- A statement after which no command is pending: a finished poll, or a reset. -/
def HostStep.settles : HostStep → Bool
  | .poll => true
  | .reset => true
  | _ => false

/-- The host keeps the busy hazard's rule (R244) from here on; `mayBusy`: a command may be pending now. -/
def polite : Bool → List HostStep → Bool
  | _, [] => true
  | mayBusy, h :: rest =>
    h.aligned && !(mayBusy && h.needsIdle) && polite (mayBusy && !h.settles || h.issues) rest

/-- A run has ended: the host's program is over and BUSY = 0 (R250). -/
def State.ended (s : State) : Prop := s.host = [] ∧ s.pend = none

/-- A safe run has no refused transaction, "a fault of the host program", however long it goes on (R55, R250). -/
def SafeRun (s : State) : Prop := ∀ k off, Host.Core.run Sys2Proof.core k s ≠ .fault (.refusedTransaction off)

end Sys2Proof.Machine
end

