-- ==== Sys2Proof/Certificates/Slice0/Obligations.lean ====
section
/-! DEFINITION. The statements for the provers, in the order of spec/: encoding, rotator, key schedule, rounds, codec,
streams, errors, frames, bus, handshake, reset, invariants. Each docstring names the rule it formalises. -/

section
open Sys2Proof Sys2Proof.Machine

/-! ### Encoding (spec/30_encoding.md) -/

/-- R84's "canonical full words" and one word of each other row, each read as the command it stands for. -/
def Obligations.PrintedWordsDecode : Prop :=
  decode 0x00000000 = .ok .nop ∧ decode 0x00000010 = .ok .keyInit ∧ decode 0x00000711 = .ok (.keyAbsorb 7) ∧
  decode 0x00000012 = .ok .keyFinal ∧ decode 0x00000020 = .ok .streamInit ∧ decode 0x00001030 = .ok (.encBlock 16) ∧
  decode 0x00000531 = .ok (.encFinal 5) ∧ decode 0x00001040 = .ok (.decBlock 16) ∧
  decode 0x00000141 = .ok (.decFinal 1) ∧ decode 0x00030050 = .ok (.rotl 3) ∧ decode 0x001F0051 = .ok (.rotr 31)

/-- R80 to R84, R87: encoding a command that has an encoding and decoding the word gives the command back. -/
def Obligations.DecodeOfEncode : Prop :=
  ∀ i : Instr, i.wellFormed = true → decode (encode i) = .ok i

/-- R84, R87: each command has one word, and only commands with a legal N are decoded. -/
def Obligations.EncodeOfDecode : Prop :=
  ∀ (w : Word) (i : Instr), decode w = .ok i → encode i = w ∧ i.wellFormed = true

/-- R84: a word decodes to a row's command exactly when it spells the row; "the rows are disjoint"; and the "canonical
full words". -/
def Obligations.OpcodeMapIsTheDecoder : Prop :=
  (∀ w : Word,
    (∀ r ∈ opcodeMap, r.spells w = true ↔ ∃ i, decode w = .ok i ∧ i.mnemonic = r.mnemonic) ∧
    (∀ r ∈ opcodeMap, ∀ r' ∈ opcodeMap, r.spells w = true → r'.spells w = true → r = r')) ∧
  (encode (.encBlock 16) = 0x00001030 ∧ encode (.decBlock 16) = 0x00001040 ∧ encode (.decFinal 16) = 0x00001041) ∧
  ∀ k : BitVec 5,
    encode (.keyAbsorb k) = 0x00000011 ||| k.setWidth 32 <<< 8 ∧ encode (.encFinal k) = 0x00000031 ||| k.setWidth 32 <<< 8 ∧
    encode (.rotl k) = 0x00000050 ||| k.setWidth 32 <<< 16 ∧ encode (.rotr k) = 0x00000051 ||| k.setWidth 32 <<< 16

/-- R85: a word that matches no row is illegal; accepted, it "completes with ERR = ILLEGAL and changes nothing else": that
is what waits in PEND, whatever LAT is (LOST is cleared by every acceptance, R240). -/
def Obligations.IllegalWordOnlySetsErr : Prop :=
  ∀ w : Word, (∀ r ∈ opcodeMap, r.spells w = false) →
    (∃ e, decode w = .error e) ∧
    ∀ s : State, execWord w s = .next { s with err := .illegal } ∧
      ∃ lat draws, accept w s = .next { s with
        lost := false, lat := lat, draws := draws, pend := some { s.toRegs with lost := false, err := .illegal } }

/-! ### Rotator (spec/40_rotate.md) -/

/-- R104: the rotations undo each other, and a right rotation is the left rotation by the rest; R100, R101: bit `i` of
a left rotation is bit `i - s` (mod 32) of the word, of a right rotation bit `i + s`. -/
def Obligations.RotationsAreInverse : Prop :=
  ∀ (v : Word) (s : Nat), rotr32 (rotl32 v s) s = v ∧ rotl32 (rotr32 v s) s = v ∧
    (s % 32 ≠ 0 → rotr32 v s = rotl32 v (32 - s % 32)) ∧
    ∀ i, i < 32 → (rotl32 v s).getLsbD i = v.getLsbD ((i + (32 - s % 32)) % 32) ∧
      (rotr32 v s).getLsbD i = v.getLsbD ((i + s) % 32)

/-- R102: ROTL, the word `0x00000050 | S << 16`, writes IN0 rotated left by S to OUT0 (bit `i` is bit `i - S` of IN0),
clears OUT1..OUT3 and sets ERR to OK; nothing else changes. It completes in every state, for every S. -/
def Obligations.RotlCompletes : Prop :=
  ∀ (k : BitVec 5) (s : State), decode (0x00000050 ||| k.setWidth 32 <<< 16) = .ok (.rotl k) ∧
    ∃ t, exec (.rotl k) s = .next t ∧ t = { s with out := t.out, err := .ok } ∧
      t.out = #v[rotl32 (le32 s.inb[0] s.inb[1] s.inb[2] s.inb[3]) k.toNat, 0, 0, 0] ∧
      ∀ i, i < 32 → t.out[0].getLsbD i =
        (le32 s.inb[0] s.inb[1] s.inb[2] s.inb[3]).getLsbD ((i + (32 - k.toNat)) % 32)

/-- R103: ROTR, the word `0x00000051 | S << 16`, likewise to the right (bit `i` is bit `i + S` of IN0); ROTR and then
ROTL by the same amount "on the result restores the input". -/
def Obligations.RotrCompletes : Prop :=
  ∀ (k : BitVec 5) (s : State), decode (0x00000051 ||| k.setWidth 32 <<< 16) = .ok (.rotr k) ∧
    ∃ t, exec (.rotr k) s = .next t ∧ t = { s with out := t.out, err := .ok } ∧
      t.out = #v[rotr32 (le32 s.inb[0] s.inb[1] s.inb[2] s.inb[3]) k.toNat, 0, 0, 0] ∧
      (∀ i, i < 32 → t.out[0].getLsbD i =
        (le32 s.inb[0] s.inb[1] s.inb[2] s.inb[3]).getLsbD ((i + k.toNat) % 32)) ∧
      rotl32 t.out[0] k.toNat = le32 s.inb[0] s.inb[1] s.inb[2] s.inb[3]

/-! ### Key schedule (spec/41_key_schedule.md) -/

/-- R112: KEY_INIT, the word 0x00000010, in IDLE or DONE starts an empty key and clears the schedule, in every key state,
and KEYLEN reads 0; in ENC or DEC it raises SEQUENCE. -/
def Obligations.KeyInitStartsAKey : Prop :=
  decode 0x00000010 = .ok .keyInit ∧
  ∀ s : State,
    (s.smode = .idle ∨ s.smode = .done → ∃ t, exec .keyInit s = .next t ∧ t.keylen = 0 ∧ t = { s with
      kmsg := [], rk := Vector.replicate 8 0, keyValid := false, keyOpen := true, err := .ok }) ∧
    (s.smode = .enc ∨ s.smode = .dec → exec .keyInit s = .next { s with err := .sequence })

/-- R113: KEY_ABSORB n, the word `0x00000011 | N << 8`: SEQUENCE with the key closed; LENGTH where KMSG would pass
2^32 - 1 bytes; otherwise it appends `INB[0..N)`, KEYLEN increases by N, and everything else but ERR is unchanged. -/
def Obligations.KeyAbsorbAppendsBytes : Prop :=
  ∀ (n : BitVec 5) (s : State), n.toNat ≤ 16 →
    decode (0x00000011 ||| n.setWidth 32 <<< 8) = .ok (.keyAbsorb n) ∧
    (s.keyOpen = false → exec (.keyAbsorb n) s = .next { s with err := .sequence }) ∧
    (s.keyOpen = true →
      (2 ^ 32 - 1 < s.kmsg.length + n.toNat → exec (.keyAbsorb n) s = .next { s with err := .length }) ∧
      (s.kmsg.length + n.toNat ≤ 2 ^ 32 - 1 →
        ∃ t, exec (.keyAbsorb n) s = .next t ∧ t.kmsg = s.kmsg ++ s.inb.toList.take n.toNat ∧
          t.keylen.toNat = s.keylen.toNat + n.toNat ∧ t = { s with kmsg := t.kmsg, err := .ok }))

/-- R114: KEY_FINAL, the word 0x00000012, with the key open loads the schedule of KMSG, for every key, KEYLEN unchanged;
with the key closed it raises SEQUENCE. An open key implies that no stream is in progress, in states that meet the
invariant. -/
def Obligations.KeyFinalLoadsSchedule : Prop :=
  decode 0x00000012 = .ok .keyFinal ∧
  ∀ s : State,
    (s.keyOpen = true → exec .keyFinal s = .next { s with
      rk := schedule s.kmsg, keyValid := true, keyOpen := false, err := .ok }) ∧
    (s.keyOpen = false → exec .keyFinal s = .next { s with err := .sequence }) ∧
    (RegsInv s.toRegs → s.keyOpen = true → s.smode = .idle ∨ s.smode = .done)

/-- R113: a key absorbed in pieces gives the schedule of the concatenation, "not on how it was split": the host writes
INB before each KEY_ABSORB, then KEY_FINAL. -/
def Obligations.AbsorbingInPiecesConcatenates : Prop :=
  ∀ (pieces : List (Block × BitVec 5)) (s : State), s.keyOpen = true → (∀ p ∈ pieces, p.2.toNat ≤ 16) →
    s.kmsg.length + (pieces.map fun p => p.2.toNat).sum ≤ 2 ^ 32 - 1 →
    ∃ t u, pieces.foldl (fun o p => andThen o fun v => exec (.keyAbsorb p.2) { v with inb := p.1 }) (.next s) = .next t ∧
      exec .keyFinal t = .next u ∧ u.keyValid = true ∧
      u.rk = schedule (s.kmsg ++ pieces.flatMap fun p => p.1.toList.take p.2.toNat)

/-- R111: round key `i` is the big-endian word of digest bytes `4i..4i+3`, equally the final chaining word `H_i`;
"testkey" gives the printed words. -/
def Obligations.RoundKeysAreDigestWords : Prop :=
  (∀ (key : List Byte) (i : Fin 8),
    (schedule key)[i] = be32 (sha256 key)[4 * i.val] (sha256 key)[4 * i.val + 1] (sha256 key)[4 * i.val + 2]
      (sha256 key)[4 * i.val + 3]) ∧
  (∀ key : List Byte, schedule key = (shaChain key).words) ∧
  schedule [0x74, 0x65, 0x73, 0x74, 0x6b, 0x65, 0x79] =
    #v[0x98483C6E, 0xB40B6C31, 0xA448C22A, 0x66DED3B5, 0xE5E8D511, 0x9CAC8327, 0xB655C8B5, 0xC4836489]

/-- R120: the padded message is the message, 0x80, the least number of zeros, and the bit length in 8 bytes, most
significant first; its length is a multiple of 64. -/
def Obligations.ShaPaddingShape : Prop :=
  ∀ m : List Byte, ∃ k, shaPad m = m ++ [0x80] ++ List.replicate k 0 ++ be64Bytes (8 * m.length) ∧
    (m.length + 1 + k) % 64 = 56 ∧ (∀ k', (m.length + 1 + k') % 64 = 56 → k ≤ k') ∧
    (8 * m.length < 2 ^ 64 → (be64Bytes (8 * m.length)).foldl (fun acc b => 256 * acc + b.toNat) 0 = 8 * m.length) ∧
    (shaPad m).length % 64 = 0

/-- R127: the digest lists each chaining word most significant byte first, and its two check values. -/
def Obligations.ShaCheckValues : Prop :=
  (∀ (m : List Byte) (i : Fin 8), be32 (sha256 m)[4 * i.val] (sha256 m)[4 * i.val + 1] (sha256 m)[4 * i.val + 2]
    (sha256 m)[4 * i.val + 3] = (shaChain m).words[i]) ∧
  (shaChain []).words = #v[0xe3b0c442, 0x98fc1c14, 0x9afbf4c8, 0x996fb924, 0x27ae41e4, 0x649b934c, 0xa495991b, 0x7852b855] ∧
  (shaChain [0x61, 0x62, 0x63]).words =
    #v[0xba7816bf, 0x8f01cfea, 0x414140de, 0x5dae2223, 0xb00361a3, 0x96177a9c, 0xb410ff61, 0xf20015ad]

/-! ### Rounds and codec (spec/42_round.md, spec/43_block_codec.md) -/

/-- R144: a round and the inverse round undo each other under one key, for every state; R147: so do the 8 rounds and
the 8 inverse rounds under one schedule. -/
def Obligations.RoundsAreInverse : Prop :=
  (∀ (st : CipherState) (rk : Word), invRoundFn (roundFn st rk) rk = st ∧ roundFn (invRoundFn st rk) rk = st) ∧
  ∀ (rk : Schedule) (st : CipherState), decRounds rk (encRounds rk st) = st ∧ encRounds rk (decRounds rk st) = st

/-- R29, R30, R146, R147: the datapath that steps ST under RC computes EncRounds and DecRounds of the loaded block, and
changes nothing but ST and RC. -/
def Obligations.DatapathComputesTheRounds : Prop :=
  ∀ (s : State) (b : Block),
    (∃ rc, s.runEnc b = { s with st := encRounds s.rk (deser b), rc := rc }) ∧
    (∃ rc, s.runDec b = { s with st := decRounds s.rk (deser b), rc := rc })

/-- R161: the serializer's byte lanes; it and the deserializer undo each other; and it is the byte view of OUT. -/
def Obligations.SerializerInvertsDeserializer : Prop :=
  (∀ (st : CipherState) (j : Fin 4), (ser st)[j.val] = byteLane st.a j ∧ (ser st)[4 + j.val] = byteLane st.b j ∧
    (ser st)[8 + j.val] = byteLane st.c j ∧ (ser st)[12 + j.val] = byteLane st.d j) ∧
  (∀ b : Block, ser (deser b) = b) ∧ (∀ st : CipherState, deser (ser st) = st) ∧
  ∀ (r : Regs) (st : CipherState), r.out = #v[st.a, st.b, st.c, st.d] → r.outBytes = ser st

/-- R162, R163: the two block functions, and that DecBlock undoes EncBlock on every block under one schedule, and the
other way round. -/
def Obligations.DecBlockInvertsEncBlock : Prop :=
  ∀ (rk : Schedule) (b : Block), encBlock rk b = ser (encRounds rk (deser b)) ∧ decBlock rk b = ser (decRounds rk (deser b)) ∧
    decBlock rk (encBlock rk b) = b ∧ encBlock rk (decBlock rk b) = b

/-- R183: a final block of `n` bytes is `INB[0..n)` and `16 - n` bytes of that value; the padded stream is the plaintext
and `padLen` bytes of value `padLen = 16 - (len mod 16)`, always 1 to 16, and fills whole blocks. -/
def Obligations.PaddingShape : Prop :=
  (∀ (inb : Block) (n : Nat), n ≤ 15 →
    (padBlock inb n).toList = inb.toList.take n ++ List.replicate (16 - n) (BitVec.ofNat 8 (16 - n))) ∧
  (∀ p : List Byte, ∃ padLen, padLen = 16 - p.length % 16 ∧ 1 ≤ padLen ∧ padLen ≤ 16 ∧
    padStream p = p ++ List.replicate padLen (BitVec.ofNat 8 padLen) ∧ (padStream p).length % 16 = 0)

/-! ### Block commands (spec/43_block_codec.md, spec/44_stream.md) -/

/-- R164: ENC_BLOCK: SEQUENCE in DEC and DONE; else NOKEY without a valid key; else LENGTH if N is not 16 or the count is
saturated; else it encrypts INB into OUT, counts the block, and enters ENC. An error changes ERR alone; PADLEN, the key
state, RK and INB never change; ST and RC are left open (R29, R30). -/
def Obligations.EncBlockCompletes : Prop :=
  ∀ (n : BitVec 5) (s : State), n.toNat ≤ 16 →
    (s.smode = .dec ∨ s.smode = .done → exec (.encBlock n) s = .next { s with err := .sequence }) ∧
    (s.smode = .idle ∨ s.smode = .enc →
      (s.keyValid = false → exec (.encBlock n) s = .next { s with err := .nokey }) ∧
      (s.keyValid = true →
        (n ≠ 16 ∨ s.blkcnt = 0xFFFFFFFF → exec (.encBlock n) s = .next { s with err := .length }) ∧
        (n = 16 → s.blkcnt ≠ 0xFFFFFFFF →
          ∃ t, exec (.encBlock n) s = .next t ∧ t.out = (encRounds s.rk (deser s.inb)).words ∧
            t.outBytes = encBlock s.rk s.inb ∧
            t = { s with
              out := t.out, blkcnt := s.blkcnt + 1, smode := .enc, err := .ok, st := t.st, rc := t.rc,
              draws := t.draws })))

/-- R165: DEC_BLOCK: SEQUENCE in ENC and DONE; else NOKEY; else LENGTH; else it decrypts INB into OUT, counts the block,
and enters DEC, whatever the block's last byte: "no padding check is made on a non-final block". -/
def Obligations.DecBlockCompletes : Prop :=
  ∀ (n : BitVec 5) (s : State), n.toNat ≤ 16 →
    (s.smode = .enc ∨ s.smode = .done → exec (.decBlock n) s = .next { s with err := .sequence }) ∧
    (s.smode = .idle ∨ s.smode = .dec →
      (s.keyValid = false → exec (.decBlock n) s = .next { s with err := .nokey }) ∧
      (s.keyValid = true →
        (n ≠ 16 ∨ s.blkcnt = 0xFFFFFFFF → exec (.decBlock n) s = .next { s with err := .length }) ∧
        (n = 16 → s.blkcnt ≠ 0xFFFFFFFF →
          ∃ t, exec (.decBlock n) s = .next t ∧ t.out = (decRounds s.rk (deser s.inb)).words ∧
            t.outBytes = decBlock s.rk s.inb ∧
            t = { s with
              out := t.out, blkcnt := s.blkcnt + 1, smode := .dec, err := .ok, st := t.st, rc := t.rc,
              draws := t.draws })))

/-- R184: ENC_FINAL n: SEQUENCE in DEC and DONE; else NOKEY; else LENGTH if N is 16 or the count is saturated; else it
encrypts the padded block, counts it, records the pad length 16 - N and ends the stream. -/
def Obligations.EncFinalCompletes : Prop :=
  ∀ (n : BitVec 5) (s : State), n.toNat ≤ 16 →
    (s.smode = .dec ∨ s.smode = .done → exec (.encFinal n) s = .next { s with err := .sequence }) ∧
    (s.smode = .idle ∨ s.smode = .enc →
      (s.keyValid = false → exec (.encFinal n) s = .next { s with err := .nokey }) ∧
      (s.keyValid = true →
        (n = 16 ∨ s.blkcnt = 0xFFFFFFFF → exec (.encFinal n) s = .next { s with err := .length }) ∧
        (n ≠ 16 → s.blkcnt ≠ 0xFFFFFFFF →
          ∃ t, exec (.encFinal n) s = .next t ∧ t.out = (encRounds s.rk (deser (padBlock s.inb n.toNat))).words ∧
            t.padlen.toNat = 16 - n.toNat ∧
            t = { s with
              out := t.out, blkcnt := s.blkcnt + 1, padlen := t.padlen, smode := .done, err := .ok, st := t.st,
              rc := t.rc, draws := t.draws })))

/-- R185, R186: DEC_FINAL: SEQUENCE in ENC and DONE; else NOKEY; else LENGTH; else it decrypts, counts the block, records
its last byte in PADLEN and ends the stream: if that byte is not 0 and at most the stream's exact decrypted length, OUT is
the block and ERR is OK, otherwise OUT is cleared and ERR is PADDING. -/
def Obligations.DecFinalCompletes : Prop :=
  ∀ (n : BitVec 5) (s : State), n.toNat ≤ 16 →
    (s.smode = .enc ∨ s.smode = .done → exec (.decFinal n) s = .next { s with err := .sequence }) ∧
    (s.smode = .idle ∨ s.smode = .dec →
      (s.keyValid = false → exec (.decFinal n) s = .next { s with err := .nokey }) ∧
      (s.keyValid = true →
        (n ≠ 16 ∨ s.blkcnt = 0xFFFFFFFF → exec (.decFinal n) s = .next { s with err := .length }) ∧
        (n = 16 → s.blkcnt ≠ 0xFFFFFFFF →
          ∃ t, exec (.decFinal n) s = .next t ∧ t.padlen = (decBlock s.rk s.inb)[15] ∧
            (t.padlen ≠ 0 ∧ t.padlen.toNat ≤ 16 * (s.blkcnt.toNat + 1) →
              t.err = .ok ∧ t.out = (decRounds s.rk (deser s.inb)).words ∧ t.outBytes = decBlock s.rk s.inb) ∧
            (¬ (t.padlen ≠ 0 ∧ t.padlen.toNat ≤ 16 * (s.blkcnt.toNat + 1)) →
              t.err = .padding ∧ t.out = #v[0, 0, 0, 0]) ∧
            t = { s with
              out := t.out, blkcnt := s.blkcnt + 1, padlen := t.padlen, smode := .done, err := t.err, st := t.st,
              rc := t.rc, draws := t.draws })))

/-- R246, R113, R184: "stale bytes beyond `n` have no effect": two machines that differ in INB beyond the first n bytes
alone answer KEY_ABSORB n and ENC_FINAL n alike. -/
def Obligations.StaleBytesHaveNoEffect : Prop :=
  ∀ (n : BitVec 5) (s : State) (b : Block), b.toList.take n.toNat = s.inb.toList.take n.toNat →
    ∀ i ∈ [Instr.keyAbsorb n, Instr.encFinal n],
      ∃ t, exec i s = .next t ∧ exec i { s with inb := b } = .next { t with inb := b }

/-- R81, log entry 9: a command whose N has no encoding does nothing but report ILLEGAL, before every other check. The
decoder never gives one; that `exec` reports it is the model's choice. -/
def Obligations.UnencodableCountIsIllegal : Prop :=
  ∀ (n : BitVec 5) (s : State), 16 < n.toNat →
    ∀ i ∈ [Instr.keyAbsorb n, Instr.encBlock n, Instr.encFinal n, Instr.decBlock n, Instr.decFinal n],
      exec i s = .next { s with err := .illegal }

/-- R166: a block command's output depends on INB, N and RK alone: two states that agree on these, whatever else they
hold, give the same OUT when both let the command through. -/
def Obligations.BlocksAreIndependent : Prop :=
  ∀ (n : BitVec 5) (s s' t t' : State), s.inb = s'.inb → s.rk = s'.rk →
    ∀ i ∈ [Instr.encBlock n, Instr.encFinal n, Instr.decBlock n, Instr.decFinal n],
      exec i s = .next t → exec i s' = .next t' → t.err = .ok → t'.err = .ok → t.out = t'.out

/-- R182: NOP, the word 0x00000000, sets ERR to OK and changes nothing else: STATUS keeps every bit outside field ERR, as
in the rule's example (0x00000332 becomes 0x00000032). -/
def Obligations.NopOnlyClearsErr : Prop :=
  decode 0x00000000 = .ok .nop ∧
  ∀ s : State, ∃ t, exec .nop s = .next t ∧ t = { s with err := .ok } ∧ t.statusWord = s.statusWord &&& 0xFFFFF0FF

/-- R181: STREAM_INIT, the word 0x00000020, resets SMODE, BLKCNT and PADLEN in every state; "issuing it twice is the same
as once". -/
def Obligations.StreamInitStartsAStream : Prop :=
  decode 0x00000020 = .ok .streamInit ∧
  ∀ s : State, exec .streamInit s = .next { s with smode := .idle, blkcnt := 0, padlen := 0, err := .ok } ∧
    andThen (exec .streamInit s) (exec .streamInit) = exec .streamInit s

/-- R180: SMODE after every command, as the table gives it: SEQUENCE where the cell says so; the new mode when the
command is let through (also by DEC_FINAL with PADDING); unchanged after any other error. -/
def Obligations.StreamTableHolds : Prop :=
  ∀ (i : Instr) (s : State), i.wellFormed = true →
    ∃ t, exec i s = .next t ∧
      (smodeAfter i s.smode = none → t.err = .sequence ∧ t.smode = s.smode) ∧
      (∀ m, smodeAfter i s.smode = some m → t.err = .ok ∨ t.err = .padding → t.smode = m) ∧
      (t.err ≠ .ok → t.err ≠ .padding → t.smode = s.smode)

/-! ### Errors and frames (spec/60_exceptions.md, spec/10_state.md) -/

/-- R200: every command completes with a result code, and a failed one changes nothing but ERR, except DEC_FINAL with
PADDING; so does every word that is no command, with ILLEGAL (R202). -/
def Obligations.FailedCommandChangesOnlyErr : Prop :=
  (∀ (i : Instr) (s : State), ∃ t, exec i s = .next t ∧
    (t.err ≠ .ok → t = { s with err := t.err } ∨ t.err = .padding ∧ ∃ n, i = .decFinal n)) ∧
  ∀ (w : Word) (e : Illegal) (s : State), decode w = .error e → execWord w s = .next { s with err := .illegal }

/-- R204, R203, R206 and R202: which commands can report which code. -/
def Obligations.ErrorsComeFromTheirCommands : Prop :=
  ∀ (i : Instr) (s t : State), i.wellFormed = true → exec i s = .next t →
    t.err ≠ .illegal ∧
    (t.err = .nokey → s.keyValid = false ∧ ∃ n, i = .encBlock n ∨ i = .encFinal n ∨ i = .decBlock n ∨ i = .decFinal n) ∧
    (t.err = .padding → s.keyValid = true ∧ ∃ n, i = .decFinal n) ∧
    (t.err = .sequence → smodeAfter i s.smode = none ∨ s.keyOpen = false ∧ (i = .keyFinal ∨ ∃ n, i = .keyAbsorb n))

/-- R21, R31, R58: no command writes INB, LOST, PEND or anything on the bus side. -/
def Obligations.CommandsLeaveInputAndBus : Prop :=
  ∀ (i : Instr) (s t : State), exec i s = .next t →
    t.inb = s.inb ∧ t.lost = s.lost ∧ t.pend = s.pend ∧ t.lat = s.lat ∧ t.rsp = s.rsp ∧
    t.collected = s.collected ∧ t.host = s.host

/-- R23, R35: only the key commands write the key state; KEY_ABSORB leaves RK and the flags, KEY_FINAL leaves KMSG. A
successful KEY_INIT goes to OPEN, KEY_FINAL goes from OPEN to VALID, and the two flags never come to hold together. -/
def Obligations.KeyStateFrame : Prop :=
  ∀ (i : Instr) (s t : State), exec i s = .next t →
    (i ≠ .keyInit → i ≠ .keyFinal → t.rk = s.rk ∧ t.keyValid = s.keyValid ∧ t.keyOpen = s.keyOpen) ∧
    (i ≠ .keyInit → (∀ n, i ≠ .keyAbsorb n) → t.kmsg = s.kmsg) ∧
    (i = .keyInit → t.err = .ok → t.keyValid = false ∧ t.keyOpen = true) ∧
    (i = .keyFinal → t.err = .ok → s.keyOpen = true ∧ t.keyValid = true ∧ t.keyOpen = false) ∧
    (¬ (s.keyValid = true ∧ s.keyOpen = true) → ¬ (t.keyValid = true ∧ t.keyOpen = true))

/-- R22, R25, R26, R102, R103, R112 to R114, R181, R182: the key commands, NOP and STREAM_INIT leave OUT; the key
commands, NOP, ROTL and ROTR leave SMODE and BLKCNT; only the final commands and STREAM_INIT write PADLEN. That commands
other than the block commands leave ST and RC is the model's choice (log entry 6): R29 and R30 give these no
architectural value between commands, and R208 says only that the state is as before "except for the writes its rule
lists". -/
def Obligations.StreamAndOutputFrame : Prop :=
  ∀ (i : Instr) (s t : State), exec i s = .next t →
    (i ∈ [Instr.nop, .keyInit, .keyFinal, .streamInit] ∨ (∃ n, i = .keyAbsorb n) → t.out = s.out) ∧
    (i ∈ [Instr.nop, .keyInit, .keyFinal] ∨ (∃ n, i = .keyAbsorb n ∨ i = .rotl n ∨ i = .rotr n) →
      t.smode = s.smode ∧ t.blkcnt = s.blkcnt) ∧
    (i ≠ .streamInit → (∀ n, i ≠ .encFinal n ∧ i ≠ .decFinal n) → t.padlen = s.padlen) ∧
    ((∀ n, i ≠ .encBlock n ∧ i ≠ .encFinal n ∧ i ≠ .decBlock n ∧ i ≠ .decFinal n) → t.st = s.st ∧ t.rc = s.rc)

/-! ### Bus (spec/20_memory.md, spec/10_state.md) -/

/-- R24, R37, R201: STATUS, bit by bit: each field in its place, reserved bits 0; and the numbers of the two coded fields,
SMODE (IDLE 0, ENC 1, DEC 2, DONE 3) and ERR (OK 0, ILLEGAL 1, LENGTH 2, PADDING 3, NOKEY 4, SEQUENCE 5). -/
def Obligations.StatusFieldsInPlace : Prop :=
  (∀ s : State,
    s.statusWord.getLsbD 0 = s.busy ∧ s.statusWord.getLsbD 1 = s.keyValid ∧ s.statusWord.getLsbD 2 = s.keyOpen ∧
    s.statusWord.extractLsb' 4 2 = s.smode.code ∧ s.statusWord.extractLsb' 8 4 = s.err.code ∧
    s.statusWord.getLsbD 16 = s.lost ∧
    ∀ k, k = 3 ∨ k = 6 ∨ k = 7 ∨ (12 ≤ k ∧ k ≤ 15) ∨ 17 ≤ k → s.statusWord.getLsbD k = false) ∧
  (SMode.idle.code = 0 ∧ SMode.enc.code = 1 ∧ SMode.dec.code = 2 ∧ SMode.done.code = 3) ∧
  (Err.ok.code = 0 ∧ Err.illegal.code = 1 ∧ Err.length.code = 2 ∧ Err.padding.code = 3 ∧ Err.nokey.code = 4 ∧
    Err.sequence.code = 5)

/-- R52, R56, R58: with no command pending, a read at each offset of the register map gives the register, CMD and the
reserved offsets read 0, and the read changes nothing but the response. -/
def Obligations.IdleReadsGiveTheRegister : Prop :=
  ∀ s : State, s.pend = none →
    (∀ (off : Offset) (v : Word),
      (off = 0x04 ∧ v = s.statusWord) ∨ (off = 0x08 ∧ v = s.blkcnt) ∨ (off = 0x0C ∧ v = s.padlen.setWidth 32) ∨
      (off = 0x10 ∧ v = BitVec.ofNat 32 s.kmsg.length) ∨
      (∃ k : Fin 4, off = BitVec.ofNat 8 (0x20 + 4 * k) ∧
        v = le32 s.inb[4 * k.val] s.inb[4 * k.val + 1] s.inb[4 * k.val + 2] s.inb[4 * k.val + 3]) ∨
      (∃ k : Fin 4, off = BitVec.ofNat 8 (0x30 + 4 * k) ∧ v = s.out[k]) ∨
      (∃ k : Fin 8, off = BitVec.ofNat 8 (0x40 + 4 * k) ∧ v = s.rk[k]) ∨
      (off.toNat % 4 = 0 ∧ v = 0 ∧ (off = 0x00 ∨ (0x14 ≤ off.toNat ∧ off.toNat ≤ 0x1C) ∨ 0x60 ≤ off.toNat)) →
      memRead off s = (v, { s with rsp := some ⟨some v, false⟩ }))

/-- R242: with a command pending, STATUS reads BUSY = 1 and LOST its value; IN0..IN3 read INB; CMD and the reserved
offsets read 0. Every other read is a draw, of which nothing is said. -/
def Obligations.BusyReads : Prop :=
  ∀ (s : State) (r : Regs), s.pend = some r →
    (memRead 0x04 s).1.getLsbD 0 = true ∧ (memRead 0x04 s).1.getLsbD 16 = s.lost ∧
    (∀ k : Fin 4, (memRead (BitVec.ofNat 8 (0x20 + 4 * k)) s).1 =
      le32 s.inb[4 * k.val] s.inb[4 * k.val + 1] s.inb[4 * k.val + 2] s.inb[4 * k.val + 3]) ∧
    ∀ off : Offset, off.toNat % 4 = 0 →
      off = 0x00 ∨ (0x14 ≤ off.toNat ∧ off.toNat ≤ 0x1C) ∨ 0x60 ≤ off.toNat → (memRead off s).1 = 0

/-- R57: "reads have no side effect on any register", at any offset, busy or not. -/
def Obligations.ReadsHaveNoSideEffect : Prop :=
  ∀ (off : Offset) (s : State),
    (memRead off s).2.toRegs = s.toRegs ∧ (memRead off s).2.pend = s.pend ∧ (memRead off s).2.lat = s.lat ∧
    (memRead off s).2.collected = s.collected ∧ (memRead off s).2.host = s.host

/-- R21, R57, R58: with no command pending, the host's write of `v` to INk sets the four bytes of INk to the lanes of
`v`, leaves every other byte of INB, and changes no other register; INk then reads `v`. -/
def Obligations.InputWriteSetsFourBytes : Prop :=
  ∀ (s : State) (k : Fin 4) (v : Word) (rest : List HostStep),
    s.pend = none → s.host = .write (BitVec.ofNat 8 (0x20 + 4 * k)) 0b1111 v :: rest →
    ∃ inb : Block, step s = .next { s with inb := inb, host := rest, rsp := some ⟨none, false⟩ } ∧
      (∀ j : Fin 4, inb[4 * k.val + j.val] = v.extractLsb' (8 * j) 8) ∧
      (∀ b : Fin 16, b.val / 4 ≠ k.val → inb[b] = s.inb[b]) ∧
      le32 inb[4 * k.val] inb[4 * k.val + 1] inb[4 * k.val + 2] inb[4 * k.val + 3] = v

/-- R56: a full aligned write to a read-only register or a reserved offset is ignored, busy or not, with
`rsp_err = 0`. -/
def Obligations.ReadOnlyWritesAreIgnored : Prop :=
  ∀ (s : State) (off : Offset) (v : Word), off.toNat % 4 = 0 →
    (0x04 ≤ off.toNat ∧ off.toNat ≤ 0x1C) ∨ 0x30 ≤ off.toNat →
    memWrite off 0b1111 v s = .next { s with rsp := some ⟨none, false⟩ }

/-- R55: a misaligned transaction, or a write with other byte enables, is refused: `rsp_err = 1`, no register changes, a
read returns 0; the host's step ends in the fault that the model makes of it (log entry 2), also while BUSY = 1, unless
the step is the pending command's completion. -/
def Obligations.RefusedTransactionHasNoEffect : Prop :=
  ∀ (s : State) (off : Offset) (strb : BitVec 4) (v : Word) (rest : List HostStep),
    (off.toNat % 4 ≠ 0 → memRead off s = (0, { s with rsp := some ⟨some 0, true⟩ })) ∧
    (off.toNat % 4 ≠ 0 ∨ strb ≠ 0b1111 → memWrite off strb v s = .next { s with rsp := some ⟨none, true⟩ }) ∧
    (s.pend = none ∨ s.lat ≠ 0 →
      (off.toNat % 4 ≠ 0 → s.host = .read off :: rest → step s = .fault (.refusedTransaction off)) ∧
      (off.toNat % 4 ≠ 0 ∨ strb ≠ 0b1111 → s.host = .write off strb v :: rest →
        step s = .fault (.refusedTransaction off)))

/-! ### Handshake and reset (spec/70_reset_and_hazards.md) -/

/-- R240, R202: a step at which the host writes a word to CMD while BUSY = 0 is `exec` of the decoded command on the
registers with LOST = 0, or, for an illegal word, those registers with ERR = ILLEGAL; the result is held in PEND until
completion. LAT counted in steps is the model's choice (log entry 3). -/
def Obligations.StepRunsTheDecodedCommand : Prop :=
  ∀ (s : State) (w : Word) (rest : List HostStep), s.pend = none → s.host = .write 0x00 0b1111 w :: rest →
    (∀ (i : Instr) (t : State), decode w = .ok i → exec i { s with host := rest, lost := false } = .next t →
      step s = .next { s with
        host := rest, lost := false, pend := some t.toRegs, lat := Config.lat t.draws, draws := t.draws + 1,
        rsp := some ⟨none, false⟩ }) ∧
    ∀ e : Illegal, decode w = .error e →
      step s = .next { s with
        host := rest, lost := false, pend := some { s.toRegs with lost := false, err := .illegal },
        lat := Config.lat s.draws, draws := s.draws + 1, rsp := some ⟨none, false⟩ }

/-- R241: when LAT has run out, the pending registers become the machine's, all at once, but LOST, which stays. -/
def Obligations.CompletionInstallsPending : Prop :=
  ∀ (s : State) (r : Regs), s.pend = some r → s.lat = 0 →
    step s = .next { s with toRegs := { r with lost := s.lost }, pend := none }

/-- R240, R241 ("the completion always happens within `LAT`"), R250, R217, log entry 3: with the host silent, the
pending command completes after exactly LAT further steps; the run has then ended, and every later step changes nothing.
That LAT is counted in steps is the model's choice. -/
def Obligations.PendingCommandCompletes : Prop :=
  ∀ (s : State) (r : Regs), s.pend = some r → s.host = [] →
    ∃ t, Host.Core.run Sys2Proof.core (s.lat + 1) s = .next t ∧
      t = { s with toRegs := { r with lost := s.lost }, pend := none, lat := 0 } ∧ t.ended ∧ step t = .next t

/-- R89 (`do M` is `cmd M` then `poll`), R240, R241, log entry 4: from an idle state, `do M` reaches a state, whatever
LAT is, whose registers are those `exec` gives for M, with no command pending and the rest of the host's program left. -/
def Obligations.DoCommandReachesItsResult : Prop :=
  ∀ (s t : State) (i : Instr) (rest : List HostStep), s.pend = none → i.wellFormed = true →
    s.host = doCmd i ++ rest → exec i { s with host := .poll :: rest, lost := false } = .next t →
    ∃ k u, Host.Core.run Sys2Proof.core k s = .next u ∧ u.toRegs = t.toRegs ∧ u.pend = none ∧ u.host = rest

/-- R243: a write to CMD or IN0..IN3 while BUSY = 1 is ignored, the command not queued, and sets LOST. -/
def Obligations.BusyWriteIsLost : Prop :=
  ∀ (s : State) (r : Regs) (off : Offset) (v : Word) (rest : List HostStep),
    s.pend = some r → s.lat ≠ 0 → off = 0x00 ∨ off = 0x20 ∨ off = 0x24 ∨ off = 0x28 ∨ off = 0x2C →
    s.host = .write off 0b1111 v :: rest →
    step s = .next { s with lost := true, host := rest, lat := s.lat - 1, rsp := some ⟨none, false⟩ }

/-- R243: LOST is set only by a write to CMD or IN0..IN3 while BUSY = 1, and "cleared only by the next accepted command"
"and by reset". -/
def Obligations.LostFollowsIgnoredWrites : Prop :=
  ∀ s t : State, step s = .next t →
    (s.lost = false → t.lost = true → s.busy = true ∧ ∃ off v rest, s.host = .write off 0b1111 v :: rest ∧
      (off = 0x00 ∨ off = 0x20 ∨ off = 0x24 ∨ off = 0x28 ∨ off = 0x2C)) ∧
    (s.lost = true → t.lost = false → ∃ rest, s.host = .reset :: rest ∨
      s.busy = false ∧ ∃ w, s.host = .write 0x00 0b1111 w :: rest)

/-- R230, R231: a reset, also while BUSY = 1, puts every register, PEND and BUSY at their reset values; a pending command
has no effect. What the host has collected and has still to do is not CORE's (log entry 4). -/
def Obligations.ResetAbandonsEverything : Prop :=
  ∀ (s : State) (rest : List HostStep), s.pend = none ∨ s.lat ≠ 0 → s.host = .reset :: rest →
    ∃ t, step s = .next t ∧ t.toRegs = State.reset.toRegs ∧ t.pend = none ∧ t.statusWord = 0 ∧ t.host = rest ∧
      t.collected = s.collected

/-- R36, R232: the reset values that the spec gives, and that STATUS is 0. -/
def Obligations.ResetValues : Prop :=
  (∀ i : Fin 16, State.reset.inb[i] = 0) ∧ (∀ i : Fin 4, State.reset.out[i] = 0) ∧ (∀ i : Fin 8, State.reset.rk[i] = 0) ∧
  State.reset.busy = false ∧ State.reset.keyValid = false ∧ State.reset.keyOpen = false ∧
  State.reset.smode = .idle ∧ State.reset.err = .ok ∧ State.reset.lost = false ∧ State.reset.blkcnt = 0 ∧
  State.reset.padlen = 0 ∧ State.reset.keylen = 0 ∧ State.reset.kmsg = [] ∧ State.reset.pend = none ∧
  State.reset.statusWord = 0x00000000

/-! ### Invariants and headline results -/

/-- The reset state meets the invariant (R35, R231). -/
def Obligations.ResetMeetsTheInvariant : Prop := MachineInv State.reset

/-- R23, R25, R26, R28, R35, R37, R64, R114, R115: every step, from any state that meets it, keeps the invariant: the
key states exclude each other, RK is the schedule of KMSG or 0, a stream in progress has its key, the counts fit the
stream mode, and a pending command cannot change INB or a running stream's schedule. -/
def Obligations.StepKeepsTheInvariant : Prop :=
  ∀ s t : State, MachineInv s → step s = .next t → MachineInv t

/-- R64: inside a stream no step but a reset changes the schedule, so that "every block of a stream is processed with one
schedule". -/
def Obligations.OneSchedulePerStream : Prop :=
  ∀ s t : State, MachineInv s → s.smode.inProgress → (∀ rest, s.host ≠ .reset :: rest) → step s = .next t → t.rk = s.rk

/-- R244, R243, R55: a host that keeps the busy hazard's rule and makes aligned full transactions never loses a write,
at any LAT; each step leaves it such a host, and its run is safe: no transaction is ever refused. -/
def Obligations.PoliteHostLosesNothing : Prop :=
  ∀ s : State, polite s.busy s.host = true → s.lost = false → (∀ r, s.pend = some r → r.lost = false) →
    SafeRun s ∧
    ∀ t, step s = .next t → t.lost = false ∧ polite t.busy t.host = true ∧ ∀ r, t.pend = some r → r.lost = false

/-- R12, R187: the whole-stream functions: decrypting what was encrypted under the same schedule gives every byte
sequence back, the empty one too. -/
def Obligations.DecryptInvertsEncrypt : Prop :=
  ∀ (rk : Schedule) (p : List Byte), decryptStream rk (encryptStream rk p) = .ok p

/-- R186, R187: what Decrypt refuses: a length that is not a positive multiple of 16; and, for any other, a last byte
that is 0 or exceeds the decrypted length. -/
def Obligations.DecryptRefusals : Prop :=
  ∀ (rk : Schedule) (c : List Byte),
    (decryptStream rk c = .error .invalidCiphertextLength ↔ c.length = 0 ∨ c.length % 16 ≠ 0) ∧
    (decryptStream rk c = .error .invalidPadding ↔ c.length ≠ 0 ∧ c.length % 16 = 0 ∧
      ∃ p, (mapBlocks (decBlock rk) c).getLast? = some p ∧ (p = 0 ∨ c.length < p.toNat))

/-- R115, R233, R113: the key load `KEY_INIT; KEY_ABSORB ...; KEY_FINAL` of any key up to 2^32 - 1 bytes, run by the host
16 bytes at a time between streams, leaves RK the schedule of the key and KEY_VALID = 1, whatever LAT is. -/
def Obligations.KeyProcedureLoadsTheKey : Prop :=
  ∀ (s : State) (key : List Byte) (rest : List HostStep), s.pend = none → s.smode = .idle ∨ s.smode = .done →
    key.length ≤ 2 ^ 32 - 1 → s.host = keyProc key ++ rest →
    ∃ k u, Host.Core.run Sys2Proof.core k s = .next u ∧ u.pend = none ∧ u.host = rest ∧ u.rk = schedule key ∧
      u.keyValid = true ∧ u.kmsg = key ∧ u.smode = s.smode

/-- R187, R188: with a key loaded, the host procedure for Encrypt(P), at any LAT, passes its every `expect ERR = OK`, and
the OUT words it reads are the bytes of Encrypt(P), `16 * (q + 1)` of them, `q = floor(L / 16)`. -/
def Obligations.EncryptProcedureComputesEncrypt : Prop :=
  ∀ (s : State) (p : List Byte) (rest : List HostStep), s.pend = none → s.keyValid = true →
    p.length / 16 + 1 ≤ 2 ^ 32 - 1 → s.host = encryptProc p ++ rest →
    ∃ k u reads, Host.Core.run Sys2Proof.core k s = .next u ∧ u.pend = none ∧ u.host = rest ∧
      u.collected = s.collected ++ reads ∧ outBytesRead reads = encryptStream s.rk p ∧
      (outBytesRead reads).length = 16 * (p.length / 16 + 1)

/-- R187, R189: with a key loaded, the host procedure for Decrypt(C), at any LAT and on every byte sequence shorter than
16 * (2^32 - 1), gives the answer of Decrypt(C): the plaintext, or the same error. -/
def Obligations.DecryptProcedureComputesDecrypt : Prop :=
  ∀ (s : State) (c : List Byte) (rest : List HostStep), s.pend = none → s.keyValid = true →
    c.length < 16 * (2 ^ 32 - 1) → s.host = decryptProc c ++ rest →
    ∃ k u reads, Host.Core.run Sys2Proof.core k s = .next u ∧ u.pend = none ∧ u.host = rest ∧
      u.collected = s.collected ++ reads ∧ decryptAnswer reads = decryptStream s.rk c

end
end

