-- ==== Sys2Proof/Laws/State.lean ====
section
/-! SUPPORT. What each named update of the state does to each field: one lemma per field per update. -/

namespace Sys2Proof.Machine

/-! ### `State.releaseDatapath` -/

@[simp] theorem releaseDatapath_inb (s : State) : s.releaseDatapath.inb = s.inb := rfl
@[simp] theorem releaseDatapath_out (s : State) : s.releaseDatapath.out = s.out := rfl
@[simp] theorem releaseDatapath_rk (s : State) : s.releaseDatapath.rk = s.rk := rfl
@[simp] theorem releaseDatapath_keyValid (s : State) : s.releaseDatapath.keyValid = s.keyValid := rfl
@[simp] theorem releaseDatapath_keyOpen (s : State) : s.releaseDatapath.keyOpen = s.keyOpen := rfl
@[simp] theorem releaseDatapath_smode (s : State) : s.releaseDatapath.smode = s.smode := rfl
@[simp] theorem releaseDatapath_err (s : State) : s.releaseDatapath.err = s.err := rfl
@[simp] theorem releaseDatapath_lost (s : State) : s.releaseDatapath.lost = s.lost := rfl
@[simp] theorem releaseDatapath_blkcnt (s : State) : s.releaseDatapath.blkcnt = s.blkcnt := rfl
@[simp] theorem releaseDatapath_padlen (s : State) : s.releaseDatapath.padlen = s.padlen := rfl
@[simp] theorem releaseDatapath_kmsg (s : State) : s.releaseDatapath.kmsg = s.kmsg := rfl
@[simp] theorem releaseDatapath_pend (s : State) : s.releaseDatapath.pend = s.pend := rfl
@[simp] theorem releaseDatapath_lat (s : State) : s.releaseDatapath.lat = s.lat := rfl
@[simp] theorem releaseDatapath_rsp (s : State) : s.releaseDatapath.rsp = s.rsp := rfl
@[simp] theorem releaseDatapath_collected (s : State) : s.releaseDatapath.collected = s.collected := rfl
@[simp] theorem releaseDatapath_host (s : State) : s.releaseDatapath.host = s.host := rfl
@[simp] theorem releaseDatapath_draws (s : State) : s.releaseDatapath.draws = s.draws + 5 := rfl

/-! ### `State.countBlock` -/

@[simp] theorem countBlock_inb (s : State) (m : SMode) : (s.countBlock m).inb = s.inb := rfl
@[simp] theorem countBlock_out (s : State) (m : SMode) : (s.countBlock m).out = s.out := rfl
@[simp] theorem countBlock_rk (s : State) (m : SMode) : (s.countBlock m).rk = s.rk := rfl
@[simp] theorem countBlock_keyValid (s : State) (m : SMode) : (s.countBlock m).keyValid = s.keyValid := rfl
@[simp] theorem countBlock_keyOpen (s : State) (m : SMode) : (s.countBlock m).keyOpen = s.keyOpen := rfl
@[simp] theorem countBlock_smode (s : State) (m : SMode) : (s.countBlock m).smode = m := rfl
@[simp] theorem countBlock_err (s : State) (m : SMode) : (s.countBlock m).err = s.err := rfl
@[simp] theorem countBlock_lost (s : State) (m : SMode) : (s.countBlock m).lost = s.lost := rfl
@[simp] theorem countBlock_blkcnt (s : State) (m : SMode) : (s.countBlock m).blkcnt = s.blkcnt + 1 := rfl
@[simp] theorem countBlock_padlen (s : State) (m : SMode) : (s.countBlock m).padlen = s.padlen := rfl
@[simp] theorem countBlock_kmsg (s : State) (m : SMode) : (s.countBlock m).kmsg = s.kmsg := rfl
@[simp] theorem countBlock_st (s : State) (m : SMode) : (s.countBlock m).st = s.st := rfl
@[simp] theorem countBlock_rc (s : State) (m : SMode) : (s.countBlock m).rc = s.rc := rfl
@[simp] theorem countBlock_pend (s : State) (m : SMode) : (s.countBlock m).pend = s.pend := rfl
@[simp] theorem countBlock_lat (s : State) (m : SMode) : (s.countBlock m).lat = s.lat := rfl
@[simp] theorem countBlock_rsp (s : State) (m : SMode) : (s.countBlock m).rsp = s.rsp := rfl
@[simp] theorem countBlock_collected (s : State) (m : SMode) : (s.countBlock m).collected = s.collected := rfl
@[simp] theorem countBlock_host (s : State) (m : SMode) : (s.countBlock m).host = s.host := rfl
@[simp] theorem countBlock_draws (s : State) (m : SMode) : (s.countBlock m).draws = s.draws := rfl

/-! ### `State.captureOut` -/

@[simp] theorem captureOut_inb (s : State) : s.captureOut.inb = s.inb := rfl
@[simp] theorem captureOut_out (s : State) : s.captureOut.out = s.st.words := rfl
@[simp] theorem captureOut_rk (s : State) : s.captureOut.rk = s.rk := rfl
@[simp] theorem captureOut_keyValid (s : State) : s.captureOut.keyValid = s.keyValid := rfl
@[simp] theorem captureOut_keyOpen (s : State) : s.captureOut.keyOpen = s.keyOpen := rfl
@[simp] theorem captureOut_smode (s : State) : s.captureOut.smode = s.smode := rfl
@[simp] theorem captureOut_err (s : State) : s.captureOut.err = s.err := rfl
@[simp] theorem captureOut_lost (s : State) : s.captureOut.lost = s.lost := rfl
@[simp] theorem captureOut_blkcnt (s : State) : s.captureOut.blkcnt = s.blkcnt := rfl
@[simp] theorem captureOut_padlen (s : State) : s.captureOut.padlen = s.padlen := rfl
@[simp] theorem captureOut_kmsg (s : State) : s.captureOut.kmsg = s.kmsg := rfl
@[simp] theorem captureOut_st (s : State) : s.captureOut.st = s.st := rfl
@[simp] theorem captureOut_rc (s : State) : s.captureOut.rc = s.rc := rfl
@[simp] theorem captureOut_pend (s : State) : s.captureOut.pend = s.pend := rfl
@[simp] theorem captureOut_lat (s : State) : s.captureOut.lat = s.lat := rfl
@[simp] theorem captureOut_rsp (s : State) : s.captureOut.rsp = s.rsp := rfl
@[simp] theorem captureOut_collected (s : State) : s.captureOut.collected = s.collected := rfl
@[simp] theorem captureOut_host (s : State) : s.captureOut.host = s.host := rfl
@[simp] theorem captureOut_draws (s : State) : s.captureOut.draws = s.draws := rfl

/-! ### `State.loadDatapath` -/

@[simp] theorem loadDatapath_inb (s : State) (b : Block) (c : BitVec 3) : (s.loadDatapath b c).inb = s.inb := rfl
@[simp] theorem loadDatapath_out (s : State) (b : Block) (c : BitVec 3) : (s.loadDatapath b c).out = s.out := rfl
@[simp] theorem loadDatapath_rk (s : State) (b : Block) (c : BitVec 3) : (s.loadDatapath b c).rk = s.rk := rfl
@[simp] theorem loadDatapath_keyValid (s : State) (b : Block) (c : BitVec 3) : (s.loadDatapath b c).keyValid = s.keyValid := rfl
@[simp] theorem loadDatapath_keyOpen (s : State) (b : Block) (c : BitVec 3) : (s.loadDatapath b c).keyOpen = s.keyOpen := rfl
@[simp] theorem loadDatapath_smode (s : State) (b : Block) (c : BitVec 3) : (s.loadDatapath b c).smode = s.smode := rfl
@[simp] theorem loadDatapath_err (s : State) (b : Block) (c : BitVec 3) : (s.loadDatapath b c).err = s.err := rfl
@[simp] theorem loadDatapath_lost (s : State) (b : Block) (c : BitVec 3) : (s.loadDatapath b c).lost = s.lost := rfl
@[simp] theorem loadDatapath_blkcnt (s : State) (b : Block) (c : BitVec 3) : (s.loadDatapath b c).blkcnt = s.blkcnt := rfl
@[simp] theorem loadDatapath_padlen (s : State) (b : Block) (c : BitVec 3) : (s.loadDatapath b c).padlen = s.padlen := rfl
@[simp] theorem loadDatapath_kmsg (s : State) (b : Block) (c : BitVec 3) : (s.loadDatapath b c).kmsg = s.kmsg := rfl
@[simp] theorem loadDatapath_st (s : State) (b : Block) (c : BitVec 3) : (s.loadDatapath b c).st = deser b := rfl
@[simp] theorem loadDatapath_rc (s : State) (b : Block) (c : BitVec 3) : (s.loadDatapath b c).rc = c := rfl
@[simp] theorem loadDatapath_pend (s : State) (b : Block) (c : BitVec 3) : (s.loadDatapath b c).pend = s.pend := rfl
@[simp] theorem loadDatapath_lat (s : State) (b : Block) (c : BitVec 3) : (s.loadDatapath b c).lat = s.lat := rfl
@[simp] theorem loadDatapath_rsp (s : State) (b : Block) (c : BitVec 3) : (s.loadDatapath b c).rsp = s.rsp := rfl
@[simp] theorem loadDatapath_collected (s : State) (b : Block) (c : BitVec 3) : (s.loadDatapath b c).collected = s.collected := rfl
@[simp] theorem loadDatapath_host (s : State) (b : Block) (c : BitVec 3) : (s.loadDatapath b c).host = s.host := rfl
@[simp] theorem loadDatapath_draws (s : State) (b : Block) (c : BitVec 3) : (s.loadDatapath b c).draws = s.draws := rfl

/-! ### `State.encStep` -/

@[simp] theorem encStep_inb (s : State) : s.encStep.inb = s.inb := rfl
@[simp] theorem encStep_out (s : State) : s.encStep.out = s.out := rfl
@[simp] theorem encStep_rk (s : State) : s.encStep.rk = s.rk := rfl
@[simp] theorem encStep_keyValid (s : State) : s.encStep.keyValid = s.keyValid := rfl
@[simp] theorem encStep_keyOpen (s : State) : s.encStep.keyOpen = s.keyOpen := rfl
@[simp] theorem encStep_smode (s : State) : s.encStep.smode = s.smode := rfl
@[simp] theorem encStep_err (s : State) : s.encStep.err = s.err := rfl
@[simp] theorem encStep_lost (s : State) : s.encStep.lost = s.lost := rfl
@[simp] theorem encStep_blkcnt (s : State) : s.encStep.blkcnt = s.blkcnt := rfl
@[simp] theorem encStep_padlen (s : State) : s.encStep.padlen = s.padlen := rfl
@[simp] theorem encStep_kmsg (s : State) : s.encStep.kmsg = s.kmsg := rfl
@[simp] theorem encStep_st (s : State) : s.encStep.st = roundFn s.st (roundKey s.rk s.rc.toNat) := rfl
@[simp] theorem encStep_rc (s : State) : s.encStep.rc = s.rc + 1 := rfl
@[simp] theorem encStep_pend (s : State) : s.encStep.pend = s.pend := rfl
@[simp] theorem encStep_lat (s : State) : s.encStep.lat = s.lat := rfl
@[simp] theorem encStep_rsp (s : State) : s.encStep.rsp = s.rsp := rfl
@[simp] theorem encStep_collected (s : State) : s.encStep.collected = s.collected := rfl
@[simp] theorem encStep_host (s : State) : s.encStep.host = s.host := rfl
@[simp] theorem encStep_draws (s : State) : s.encStep.draws = s.draws := rfl

/-! ### `State.decStep` -/

@[simp] theorem decStep_inb (s : State) : s.decStep.inb = s.inb := rfl
@[simp] theorem decStep_out (s : State) : s.decStep.out = s.out := rfl
@[simp] theorem decStep_rk (s : State) : s.decStep.rk = s.rk := rfl
@[simp] theorem decStep_keyValid (s : State) : s.decStep.keyValid = s.keyValid := rfl
@[simp] theorem decStep_keyOpen (s : State) : s.decStep.keyOpen = s.keyOpen := rfl
@[simp] theorem decStep_smode (s : State) : s.decStep.smode = s.smode := rfl
@[simp] theorem decStep_err (s : State) : s.decStep.err = s.err := rfl
@[simp] theorem decStep_lost (s : State) : s.decStep.lost = s.lost := rfl
@[simp] theorem decStep_blkcnt (s : State) : s.decStep.blkcnt = s.blkcnt := rfl
@[simp] theorem decStep_padlen (s : State) : s.decStep.padlen = s.padlen := rfl
@[simp] theorem decStep_kmsg (s : State) : s.decStep.kmsg = s.kmsg := rfl
@[simp] theorem decStep_st (s : State) : s.decStep.st = invRoundFn s.st (roundKey s.rk s.rc.toNat) := rfl
@[simp] theorem decStep_rc (s : State) : s.decStep.rc = s.rc - 1 := rfl
@[simp] theorem decStep_pend (s : State) : s.decStep.pend = s.pend := rfl
@[simp] theorem decStep_lat (s : State) : s.decStep.lat = s.lat := rfl
@[simp] theorem decStep_rsp (s : State) : s.decStep.rsp = s.rsp := rfl
@[simp] theorem decStep_collected (s : State) : s.decStep.collected = s.collected := rfl
@[simp] theorem decStep_host (s : State) : s.decStep.host = s.host := rfl
@[simp] theorem decStep_draws (s : State) : s.decStep.draws = s.draws := rfl

/-! ### `State.putRotated` -/

@[simp] theorem putRotated_inb (s : State) (v : Word) : (s.putRotated v).inb = s.inb := rfl
@[simp] theorem putRotated_out (s : State) (v : Word) : (s.putRotated v).out = #v[v, 0, 0, 0] := rfl
@[simp] theorem putRotated_rk (s : State) (v : Word) : (s.putRotated v).rk = s.rk := rfl
@[simp] theorem putRotated_keyValid (s : State) (v : Word) : (s.putRotated v).keyValid = s.keyValid := rfl
@[simp] theorem putRotated_keyOpen (s : State) (v : Word) : (s.putRotated v).keyOpen = s.keyOpen := rfl
@[simp] theorem putRotated_smode (s : State) (v : Word) : (s.putRotated v).smode = s.smode := rfl
@[simp] theorem putRotated_err (s : State) (v : Word) : (s.putRotated v).err = s.err := rfl
@[simp] theorem putRotated_lost (s : State) (v : Word) : (s.putRotated v).lost = s.lost := rfl
@[simp] theorem putRotated_blkcnt (s : State) (v : Word) : (s.putRotated v).blkcnt = s.blkcnt := rfl
@[simp] theorem putRotated_padlen (s : State) (v : Word) : (s.putRotated v).padlen = s.padlen := rfl
@[simp] theorem putRotated_kmsg (s : State) (v : Word) : (s.putRotated v).kmsg = s.kmsg := rfl
@[simp] theorem putRotated_st (s : State) (v : Word) : (s.putRotated v).st = s.st := rfl
@[simp] theorem putRotated_rc (s : State) (v : Word) : (s.putRotated v).rc = s.rc := rfl
@[simp] theorem putRotated_pend (s : State) (v : Word) : (s.putRotated v).pend = s.pend := rfl
@[simp] theorem putRotated_lat (s : State) (v : Word) : (s.putRotated v).lat = s.lat := rfl
@[simp] theorem putRotated_rsp (s : State) (v : Word) : (s.putRotated v).rsp = s.rsp := rfl
@[simp] theorem putRotated_collected (s : State) (v : Word) : (s.putRotated v).collected = s.collected := rfl
@[simp] theorem putRotated_host (s : State) (v : Word) : (s.putRotated v).host = s.host := rfl
@[simp] theorem putRotated_draws (s : State) (v : Word) : (s.putRotated v).draws = s.draws := rfl

/-! ### `answered` -/

@[simp] theorem answered_inb (v : Option Word) (s : State) : (answered v s).inb = s.inb := rfl
@[simp] theorem answered_out (v : Option Word) (s : State) : (answered v s).out = s.out := rfl
@[simp] theorem answered_rk (v : Option Word) (s : State) : (answered v s).rk = s.rk := rfl
@[simp] theorem answered_keyValid (v : Option Word) (s : State) : (answered v s).keyValid = s.keyValid := rfl
@[simp] theorem answered_keyOpen (v : Option Word) (s : State) : (answered v s).keyOpen = s.keyOpen := rfl
@[simp] theorem answered_smode (v : Option Word) (s : State) : (answered v s).smode = s.smode := rfl
@[simp] theorem answered_err (v : Option Word) (s : State) : (answered v s).err = s.err := rfl
@[simp] theorem answered_lost (v : Option Word) (s : State) : (answered v s).lost = s.lost := rfl
@[simp] theorem answered_blkcnt (v : Option Word) (s : State) : (answered v s).blkcnt = s.blkcnt := rfl
@[simp] theorem answered_padlen (v : Option Word) (s : State) : (answered v s).padlen = s.padlen := rfl
@[simp] theorem answered_kmsg (v : Option Word) (s : State) : (answered v s).kmsg = s.kmsg := rfl
@[simp] theorem answered_st (v : Option Word) (s : State) : (answered v s).st = s.st := rfl
@[simp] theorem answered_rc (v : Option Word) (s : State) : (answered v s).rc = s.rc := rfl
@[simp] theorem answered_pend (v : Option Word) (s : State) : (answered v s).pend = s.pend := rfl
@[simp] theorem answered_lat (v : Option Word) (s : State) : (answered v s).lat = s.lat := rfl
@[simp] theorem answered_rsp (v : Option Word) (s : State) : (answered v s).rsp = some ⟨v, false⟩ := rfl
@[simp] theorem answered_collected (v : Option Word) (s : State) : (answered v s).collected = s.collected := rfl
@[simp] theorem answered_host (v : Option Word) (s : State) : (answered v s).host = s.host := rfl
@[simp] theorem answered_draws (v : Option Word) (s : State) : (answered v s).draws = s.draws := rfl

/-! ### `refusedBus` -/

@[simp] theorem refusedBus_inb (v : Option Word) (s : State) : (refusedBus v s).inb = s.inb := rfl
@[simp] theorem refusedBus_out (v : Option Word) (s : State) : (refusedBus v s).out = s.out := rfl
@[simp] theorem refusedBus_rk (v : Option Word) (s : State) : (refusedBus v s).rk = s.rk := rfl
@[simp] theorem refusedBus_keyValid (v : Option Word) (s : State) : (refusedBus v s).keyValid = s.keyValid := rfl
@[simp] theorem refusedBus_keyOpen (v : Option Word) (s : State) : (refusedBus v s).keyOpen = s.keyOpen := rfl
@[simp] theorem refusedBus_smode (v : Option Word) (s : State) : (refusedBus v s).smode = s.smode := rfl
@[simp] theorem refusedBus_err (v : Option Word) (s : State) : (refusedBus v s).err = s.err := rfl
@[simp] theorem refusedBus_lost (v : Option Word) (s : State) : (refusedBus v s).lost = s.lost := rfl
@[simp] theorem refusedBus_blkcnt (v : Option Word) (s : State) : (refusedBus v s).blkcnt = s.blkcnt := rfl
@[simp] theorem refusedBus_padlen (v : Option Word) (s : State) : (refusedBus v s).padlen = s.padlen := rfl
@[simp] theorem refusedBus_kmsg (v : Option Word) (s : State) : (refusedBus v s).kmsg = s.kmsg := rfl
@[simp] theorem refusedBus_st (v : Option Word) (s : State) : (refusedBus v s).st = s.st := rfl
@[simp] theorem refusedBus_rc (v : Option Word) (s : State) : (refusedBus v s).rc = s.rc := rfl
@[simp] theorem refusedBus_pend (v : Option Word) (s : State) : (refusedBus v s).pend = s.pend := rfl
@[simp] theorem refusedBus_lat (v : Option Word) (s : State) : (refusedBus v s).lat = s.lat := rfl
@[simp] theorem refusedBus_rsp (v : Option Word) (s : State) : (refusedBus v s).rsp = some ⟨v, true⟩ := rfl
@[simp] theorem refusedBus_collected (v : Option Word) (s : State) : (refusedBus v s).collected = s.collected := rfl
@[simp] theorem refusedBus_host (v : Option Word) (s : State) : (refusedBus v s).host = s.host := rfl
@[simp] theorem refusedBus_draws (v : Option Word) (s : State) : (refusedBus v s).draws = s.draws := rfl

/-! ### `State.resetCore` and `complete` -/

@[simp] theorem resetCore_toRegs (s : State) : s.resetCore.toRegs = Regs.reset := rfl
@[simp] theorem resetCore_pend (s : State) : s.resetCore.pend = none := rfl
@[simp] theorem resetCore_lat (s : State) : s.resetCore.lat = 0 := rfl
@[simp] theorem resetCore_rsp (s : State) : s.resetCore.rsp = none := rfl
@[simp] theorem resetCore_collected (s : State) : s.resetCore.collected = s.collected := rfl
@[simp] theorem resetCore_host (s : State) : s.resetCore.host = s.host := rfl
@[simp] theorem resetCore_draws (s : State) : s.resetCore.draws = s.draws := rfl
@[simp] theorem complete_inb (r : Regs) (s : State) : (complete r s).inb = r.inb := rfl
@[simp] theorem complete_out (r : Regs) (s : State) : (complete r s).out = r.out := rfl
@[simp] theorem complete_rk (r : Regs) (s : State) : (complete r s).rk = r.rk := rfl
@[simp] theorem complete_keyValid (r : Regs) (s : State) : (complete r s).keyValid = r.keyValid := rfl
@[simp] theorem complete_keyOpen (r : Regs) (s : State) : (complete r s).keyOpen = r.keyOpen := rfl
@[simp] theorem complete_smode (r : Regs) (s : State) : (complete r s).smode = r.smode := rfl
@[simp] theorem complete_err (r : Regs) (s : State) : (complete r s).err = r.err := rfl
@[simp] theorem complete_lost (r : Regs) (s : State) : (complete r s).lost = s.lost := rfl
@[simp] theorem complete_blkcnt (r : Regs) (s : State) : (complete r s).blkcnt = r.blkcnt := rfl
@[simp] theorem complete_padlen (r : Regs) (s : State) : (complete r s).padlen = r.padlen := rfl
@[simp] theorem complete_kmsg (r : Regs) (s : State) : (complete r s).kmsg = r.kmsg := rfl
@[simp] theorem complete_st (r : Regs) (s : State) : (complete r s).st = r.st := rfl
@[simp] theorem complete_rc (r : Regs) (s : State) : (complete r s).rc = r.rc := rfl
@[simp] theorem complete_pend (r : Regs) (s : State) : (complete r s).pend = none := rfl
@[simp] theorem complete_lat (r : Regs) (s : State) : (complete r s).lat = s.lat := rfl
@[simp] theorem complete_rsp (r : Regs) (s : State) : (complete r s).rsp = s.rsp := rfl
@[simp] theorem complete_collected (r : Regs) (s : State) : (complete r s).collected = s.collected := rfl
@[simp] theorem complete_host (r : Regs) (s : State) : (complete r s).host = s.host := rfl
@[simp] theorem complete_draws (r : Regs) (s : State) : (complete r s).draws = s.draws := rfl

end Sys2Proof.Machine
end

