-- ==== Sys2Proof/Laws/Ops.lean ====
section
/-! SUPPORT. What the shared operations can do, said once: how a command ends, which check fails, what a datapath run
leaves alone, what a host statement and a step can do to the machine. -/

namespace Sys2Proof.Machine

@[simp] theorem finish_eq (e : Err) (s : State) : finish e s = .next { s with err := e } := rfl

@[simp] theorem succeed_eq (s : State) : succeed s = .next { s with err := .ok } := rfl

@[simp] theorem raiseError_eq (e : Err) (s : State) : raiseError e s = .next { s with err := e } := rfl

@[simp] theorem command_some (e : Err) (f : State → Result) (s : State) :
    command (some e) f s = .next { s with err := e } := rfl

@[simp] theorem command_none (f : State → Result) (s : State) : command none f s = f s := rfl

/-- A command that answers a next state has failed a check, and then only ERR changed, or has had its effect. -/
theorem command_next {c : Option Err} {f : State → Result} {s t : State} (h : command c f s = .next t) :
    (∃ e, c = some e ∧ t = { s with err := e }) ∨ (c = none ∧ f s = .next t) := by
  cases c with
  | none => exact .inr ⟨rfl, h⟩
  | some e => simp only [command_some, Host.Outcome.next.injEq] at h; exact .inl ⟨e, rfl, h.symm⟩

@[simp] theorem firstError_nil : firstError [] = none := rfl

@[simp] theorem firstError_cons (c : Bool) (e : Err) (l : List (Bool × Err)) :
    firstError ((c, e) :: l) = if c then some e else firstError l := rfl

/-- The block commands' checks all pass exactly in this case. -/
theorem blockChecks_eq_none {refused wrong : Bool} {n : BitVec 5} {s : State} :
    blockChecks refused wrong n s = none ↔
      illegalCount n = false ∧ refused = false ∧ s.keyValid = true ∧ wrong = false ∧ s.blkcnt ≠ Config.blkcntMax := by
  simp only [blockChecks, firstError_cons, firstError_nil]
  cases illegalCount n <;> cases refused <;> cases s.keyValid <;> cases wrong <;> simp

/-- KEY_ABSORB's checks all pass exactly in this case. -/
theorem keyAbsorbChecks_eq_none {n : BitVec 5} {s : State} :
    keyAbsorbChecks n s = none ↔
      illegalCount n = false ∧ s.keyOpen = true ∧ s.kmsg.length + n.toNat ≤ Config.keylenMax := by
  simp only [keyAbsorbChecks, firstError_cons, firstError_nil]
  cases illegalCount n <;> cases s.keyOpen <;> simp

theorem keyInitChecks_eq_none {s : State} : keyInitChecks s = none ↔ s.smode.refusesKeyInit = false := by
  simp only [keyInitChecks, firstError_cons, firstError_nil]; cases s.smode.refusesKeyInit <;> simp

theorem keyFinalChecks_eq_none {s : State} : keyFinalChecks s = none ↔ s.keyOpen = true := by
  simp only [keyFinalChecks, firstError_cons, firstError_nil]; cases s.keyOpen <;> simp

theorem illegalCount_eq_false {n : BitVec 5} : illegalCount n = false ↔ n.toNat ≤ 16 := by
  simp [illegalCount, countOk]

theorem andThen_next {o : Result} {f : State → Result} {t : State} :
    andThen o f = .next t ↔ ∃ s, o = .next s ∧ f s = .next t := by
  cases o <;> simp [andThen]

@[simp] theorem andThen_of_next (s : State) (f : State → Result) : andThen (.next s) f = f s := rfl

/-- A step of the datapath that changes nothing but ST and RC, repeated, changes nothing but ST and RC. -/
theorem iterate_frame {f : State → State} (hf : ∀ s, f s = { s with st := (f s).st, rc := (f s).rc }) :
    ∀ (n : Nat) (s : State), iterate f n s = { s with st := (iterate f n s).st, rc := (iterate f n s).rc }
  | 0, _ => rfl
  | n + 1, s =>
    (iterate_frame hf n (f s)).trans
      (congrArg (fun u : State => { u with st := (iterate f n (f s)).st, rc := (iterate f n (f s)).rc }) (hf s))

/-- Running the rounds forward changes nothing but ST and RC. -/
theorem runEnc_frame (s : State) (b : Block) :
    s.runEnc b = { s with st := (s.runEnc b).st, rc := (s.runEnc b).rc } :=
  iterate_frame (fun _ => rfl) Config.rounds (s.loadDatapath b 0)

/-- Running the rounds backward changes nothing but ST and RC. -/
theorem runDec_frame (s : State) (b : Block) :
    s.runDec b = { s with st := (s.runDec b).st, rc := (s.runDec b).rc } :=
  iterate_frame (fun _ => rfl) Config.rounds (s.loadDatapath b 7)

/-- What one host statement but a reset, if it does not fault, can do to the registers and to PEND: nothing (a read, a
poll, a write CORE ignores); set LOST while BUSY; write an input word; have a command accepted. -/
inductive HostEffect (s t : State) : Prop where
  | quiet (regs : t.toRegs = s.toRegs) (pend : t.pend = s.pend)
  | lost (busy : s.busy = true) (regs : t.toRegs = { s.toRegs with lost := true }) (pend : t.pend = s.pend)
  | input (k : Fin 4) (v : Word) (idle : s.pend = none)
      (regs : t.toRegs = { s.toRegs with inb := setInWord s.inb k v }) (pend : t.pend = none)
  | accepted (w : Word) (r : State) (idle : s.pend = none) (ran : execWord w { s with lost := false } = .next r)
      (regs : t.toRegs = { s.toRegs with lost := false }) (pend : t.pend = some r.toRegs)

theorem faultIfRefused_next {off : Offset} {s t : State} (h : faultIfRefused off s = .next t) : t = s := by
  unfold faultIfRefused at h; split at h <;> simp_all

/-- A read leaves the registers, PEND and the host's program alone. -/
theorem hostRead_frame (off : Offset) (s : State) :
    (hostRead off s).2.toRegs = s.toRegs ∧ (hostRead off s).2.pend = s.pend ∧ (hostRead off s).2.lat = s.lat ∧
      (hostRead off s).2.host = s.host := by
  simp only [hostRead, memRead, readReg]
  split
  · exact ⟨rfl, rfl, rfl, rfl⟩
  · split <;> exact ⟨rfl, rfl, rfl, rfl⟩

theorem writeReg_effect {r : RegName} {v : Word} {s t : State} (h : writeReg r v s = .next t) : HostEffect s t := by
  have ignored : t = s → HostEffect s t := by rintro rfl; exact .quiet rfl rfl
  cases r with
  | cmd =>
    simp only [writeReg] at h
    split at h
    · rename_i hb; cases h; exact .lost hb rfl rfl
    · rename_i hb
      have idle : s.pend = none := by simpa [State.busy] using hb
      obtain ⟨r, hr, ht⟩ := andThen_next.mp h
      cases ht
      exact .accepted v r idle hr rfl rfl
  | inWord k =>
    simp only [writeReg] at h
    split at h
    · rename_i hb; cases h; exact .lost hb rfl rfl
    · rename_i hb
      have idle : s.pend = none := by simpa [State.busy] using hb
      cases h; exact .input k v idle rfl idle
  | _ => cases h; exact ignored rfl

theorem HostEffect.of_rsp {s t : State} {p : Option Response} (h : HostEffect s t) :
    HostEffect s { t with rsp := p } := by
  cases h with
  | quiet a b => exact .quiet a b
  | lost a b c => exact .lost a b c
  | input k v a b c => exact .input k v a b c
  | accepted w r a b c d => exact .accepted w r a b c d

theorem memWrite_effect {off : Offset} {strb : BitVec 4} {v : Word} {s t : State}
    (h : memWrite off strb v s = .next t) : HostEffect s t := by
  unfold memWrite at h
  split at h
  · cases h; exact .quiet rfl rfl
  · split at h
    · obtain ⟨u, hu, ht⟩ := andThen_next.mp h
      cases ht; exact (writeReg_effect hu).of_rsp
    · cases h; exact .quiet rfl rfl

/-- What a host statement can do: reset CORE, or have one of the effects of `HostEffect`. -/
theorem hostStep_effect {h : HostStep} {s t : State} (ht : hostStep h s = .next t) :
    h = .reset ∧ t = s.resetCore ∨ HostEffect s t := by
  cases h with
  | read off =>
    rw [faultIfRefused_next ht]
    exact .inr (.quiet (hostRead_frame off s).1 (hostRead_frame off s).2.1)
  | write off strb v =>
    obtain ⟨u, hu, hf⟩ := andThen_next.mp ht
    rw [faultIfRefused_next hf]; exact .inr (memWrite_effect hu)
  | poll =>
    have f := hostRead_frame statusOffset s
    simp only [hostStep] at ht
    split at ht <;> cases ht <;> exact .inr (.quiet f.1 f.2.1)
  | expectErr e =>
    have f := hostRead_frame statusOffset s
    simp only [hostStep] at ht
    split at ht
    · cases ht; exact .inr (.quiet f.1 f.2.1)
    · cases ht
  | reset => cases ht; exact .inl ⟨rfl, rfl⟩

/-- What a step can do: complete the pending command when LAT has run out; or give the host its turn, LAT counting down
if a command is pending; a host with nothing to say changes nothing. -/
theorem advance_cases {s t : State} (h : advance s = .next t) :
    (∃ r, s.pend = some r ∧ s.lat = 0 ∧ t = complete r s) ∨
    ∃ u, (s.pend = none ∧ u = s ∨ ∃ r, s.pend = some r ∧ s.lat ≠ 0 ∧ u = { s with lat := s.lat - 1 }) ∧
      (u.host = [] ∧ t = u ∨ ∃ st rest, u.host = st :: rest ∧ hostStep st { u with host := rest } = .next t) := by
  have turn : ∀ u, hostTurn u = .next t →
      u.host = [] ∧ t = u ∨ ∃ st rest, u.host = st :: rest ∧ hostStep st { u with host := rest } = .next t := by
    intro u hu
    unfold hostTurn at hu
    split at hu
    · rename_i he; cases hu; exact .inl ⟨he, rfl⟩
    · rename_i st rest he; exact .inr ⟨st, rest, he, hu⟩
  unfold advance at h
  split at h
  · rename_i hp; exact .inr ⟨s, .inl ⟨hp, rfl⟩, turn s h⟩
  · rename_i r hp
    split at h
    · rename_i hl; cases h; exact .inl ⟨r, hp, hl, rfl⟩
    · rename_i hl; exact .inr ⟨_, .inr ⟨r, hp, hl, rfl⟩, turn _ h⟩

end Sys2Proof.Machine
end

