-- ==== Sys2Proof/Laws/Bus.lean ====
section
/-! SUPPORT. The register map offset by offset, what reads and writes reduce to there, and how a run unrolls. -/

namespace Sys2Proof.Machine

theorem regAt_misaligned {off : Offset} (h : off.toNat % 4 ≠ 0) : regAt off = none := by simp [regAt, h]

theorem regAt_cmd : regAt 0x00 = some .cmd := rfl

theorem regAt_status : regAt 0x04 = some .status := rfl

theorem regAt_inWord (k : Fin 4) : regAt (BitVec.ofNat 8 (0x20 + 4 * k)) = some (.inWord k) := by
  fin_cases k <;> rfl

theorem regAt_outWord (k : Fin 4) : regAt (BitVec.ofNat 8 (0x30 + 4 * k)) = some (.outWord k) := by
  fin_cases k <;> rfl

theorem regAt_roundKey (i : Fin 8) : regAt (BitVec.ofNat 8 (0x40 + 4 * i)) = some (.roundKey i) := by
  fin_cases i <;> rfl

/-- An aligned offset that is neither CMD nor an input word holds a register that ignores writes. -/
theorem writeReg_ignored {r : RegName} (hc : r ≠ .cmd) (hi : ∀ k, r ≠ .inWord k) (v : Word) (s : State) :
    writeReg r v s = .next s := by
  cases r with
  | cmd => exact absurd rfl hc
  | inWord k => exact absurd rfl (hi k)
  | _ => rfl

/-- A register read with no command pending. -/
theorem readReg_idle {s : State} (h : s.busy = false) (r : RegName) : readReg r s = (s.regValue r, s) := by
  simp [readReg, h]

/-- A result register read with a command pending. -/
theorem readReg_drawn {s : State} (h : s.busy = true) {r : RegName} (hr : r.isResult = true) :
    readReg r s = (s.drawnValue r, { s with draws := s.draws + 1 }) := by
  simp [readReg, h, hr]

/-- A register that is no result register reads the same, busy or not. -/
theorem readReg_plain (s : State) {r : RegName} (hr : r.isResult = false) : readReg r s = (s.regValue r, s) := by
  simp [readReg, hr]

theorem memRead_at {off : Offset} {r : RegName} (h : regAt off = some r) (s : State) :
    memRead off s = ((readReg r s).1, answered (some (readReg r s).1) (readReg r s).2) := by
  rw [memRead, h]

theorem memWrite_at {off : Offset} {r : RegName} (h : regAt off = some r) (v : Word) (s : State) :
    memWrite off 0b1111 v s = andThen (writeReg r v s) fun t => .next (answered none t) := by
  simp only [memWrite, h, if_true]

/-- A transaction CORE has taken is no fault. -/
@[simp] theorem faultIfRefused_answered (off : Offset) (v : Option Word) (s : State) :
    faultIfRefused off (answered v s) = .next (answered v s) := rfl

@[simp] theorem faultIfRefused_refusedBus (off : Offset) (v : Option Word) (s : State) :
    faultIfRefused off (refusedBus v s) = .fault (.refusedTransaction off) := rfl

@[simp] theorem busy_of_none {s : State} (h : s.pend = none) : s.busy = false := by simp [State.busy, h]

@[simp] theorem busy_of_some {s : State} {r : Regs} (h : s.pend = some r) : s.busy = true := by simp [State.busy, h]

/-- With no command pending the host takes its next statement. -/
theorem step_idle {s : State} {h : HostStep} {rest : List HostStep} (hp : s.pend = none) (hh : s.host = h :: rest) :
    step s = hostStep h { s with host := rest } := by
  simp only [step, advance, hp, hostTurn, hh]

/-- With a command pending and LAT not run out the host takes its next statement too. -/
theorem step_busy {s : State} {r : Regs} {h : HostStep} {rest : List HostStep} (hp : s.pend = some r) (hl : s.lat ≠ 0)
    (hh : s.host = h :: rest) : step s = hostStep h { s with host := rest, lat := s.lat - 1 } := by
  simp only [step, advance, hp, if_neg hl, hostTurn, hh]

theorem run_zero (s : State) : Host.Core.run Sys2Proof.core 0 s = .next s := rfl

/-- A run whose first step answers a next state goes on from there. -/
theorem run_succ {s t : State} (h : step s = .next t) (k : Nat) :
    Host.Core.run Sys2Proof.core (k + 1) s = Host.Core.run Sys2Proof.core k t := by
  have e : Sys2Proof.core.step s = .next t := h
  simp only [Host.Core.run, e]

/-- Runs compose. -/
theorem run_add {s t : State} {j : Nat} (h : Host.Core.run Sys2Proof.core j s = .next t) (k : Nat) :
    Host.Core.run Sys2Proof.core (j + k) s = Host.Core.run Sys2Proof.core k t := by
  induction j generalizing s with
  | zero => rw [run_zero] at h; cases h; rw [Nat.zero_add]
  | succ j ih =>
    cases e : step s with
    | next u => rw [run_succ e] at h; rw [Nat.succ_add, run_succ e]; exact ih h
    | fault f => simp only [Host.Core.run, show Sys2Proof.core.step s = .fault f from e] at h; cases h
    | refused f => simp only [Host.Core.run, show Sys2Proof.core.step s = .refused f from e] at h; cases h

end Sys2Proof.Machine
end

