-- ==== Sys2Proof/Laws/Bytes.lean ====
section
/-! SUPPORT. Byte lanes against assembled words, and byte sequences cut into blocks of 16
(spec/00_scope.md R9; spec/43_block_codec.md R160, R161; spec/44_stream.md R183). -/

namespace Sys2Proof.Machine

/-- A word is assembled from its lanes, the last one first. -/
theorem be32_lanes (w : Word) : be32 (byteLane w 3) (byteLane w 2) (byteLane w 1) (byteLane w 0) = w := by
  apply BitVec.eq_of_getLsbD_eq
  intro i hi
  simp only [be32, byteLane, BitVec.getLsbD_append, BitVec.getLsbD_extractLsb']
  interval_cases i <;> simp

/-- A word is assembled from its lanes, the first one first. -/
theorem le32_lanes (w : Word) : le32 (byteLane w 0) (byteLane w 1) (byteLane w 2) (byteLane w 3) = w := be32_lanes w

/-- The lanes of an assembled word. -/
theorem lanes_le32 (a b c d : Byte) :
    byteLane (le32 a b c d) 0 = a ∧ byteLane (le32 a b c d) 1 = b ∧ byteLane (le32 a b c d) 2 = c ∧
      byteLane (le32 a b c d) 3 = d := by
  refine ⟨?_, ?_, ?_, ?_⟩ <;>
  · apply BitVec.eq_of_getLsbD_eq
    intro i hi
    simp only [le32, byteLane, BitVec.getLsbD_append, BitVec.getLsbD_extractLsb']
    interval_cases i <;> simp

/-- Writing the four words of a block to the four input registers leaves exactly that block. -/
theorem setInWord_deser (inb b : Block) :
    setInWord (setInWord (setInWord (setInWord inb 0 (deser b).a) 1 (deser b).b) 2 (deser b).c) 3 (deser b).d = b := by
  ext i hi
  interval_cases i <;>
    simp [setInWord, deser, (lanes_le32 _ _ _ _).1, (lanes_le32 _ _ _ _).2.1, (lanes_le32 _ _ _ _).2.2.1,
      (lanes_le32 _ _ _ _).2.2.2]

theorem blocksOf_length : ∀ (q : Nat) (l : List Byte), (blocksOf q l).length = q
  | 0, _ => rfl
  | q + 1, l => by simp [blocksOf, blocksOf_length q]

/-- A block function maps a sequence to one of as many whole blocks. -/
theorem mapBlocks_length (f : Block → Block) (l : List Byte) : (mapBlocks f l).length = 16 * (l.length / 16) := by
  have h : ∀ bs : List Block, (bs.flatMap fun b => (f b).toList).length = 16 * bs.length := by
    intro bs
    induction bs with
    | nil => rfl
    | cons b bs ih =>
      simp only [List.flatMap_cons, List.length_append, ih, Vector.length_toList, List.length_cons]; omega
  rw [mapBlocks, h, blocksOf_length]

theorem padStream_length (p : List Byte) : (padStream p).length = 16 * (p.length / 16 + 1) := by
  simp only [padStream, List.length_append, List.length_replicate, padLength, Config.blockBytes]; omega

/-- The first block of a sequence that starts with a block's bytes is that block. -/
theorem blockOf_append (b : Block) (l : List Byte) : blockOf (b.toList ++ l) = b := by
  apply Vector.ext; intro i hi
  simp [blockOf, List.getElem?_append]

/-- Cutting the bytes of a list of blocks gives the blocks. -/
theorem blocksOf_bytes : ∀ bs : List Block, blocksOf bs.length (bs.flatMap fun b => b.toList) = bs
  | [] => rfl
  | b :: bs => by
    simp only [List.length_cons, blocksOf, List.flatMap_cons, blockOf_append]
    rw [List.drop_left' (by simp), blocksOf_bytes bs]

/-- The bytes of the blocks of a sequence of whole blocks are the sequence. -/
theorem bytes_blocksOf : ∀ (q : Nat) (l : List Byte), l.length = 16 * q → (blocksOf q l).flatMap (fun b => b.toList) = l
  | 0, l, h => by simp at h; simp [blocksOf, h]
  | q + 1, l, h => by
    simp only [blocksOf, List.flatMap_cons]
    rw [bytes_blocksOf q _ (by simp; omega)]
    conv_rhs => rw [← List.take_append_drop 16 l]
    congr 1
    apply List.ext_getElem
    · simp; omega
    · intro i h1 h2
      simp at h1
      simp [blockOf, List.getElem?_eq_getElem (show i < l.length by omega)]

/-- The last of `q + 1` blocks. -/
theorem blocksOf_succ : ∀ (q : Nat) (l : List Byte), blocksOf (q + 1) l = blocksOf q l ++ [blockOf (l.drop (16 * q))]
  | 0, l => by simp [blocksOf]
  | q + 1, l => by
    rw [blocksOf, blocksOf_succ q]
    simp only [blocksOf, List.drop_drop, List.cons_append]
    rw [show 16 + 16 * q = 16 * (q + 1) by omega]

/-- What follows whole blocks does not change them. -/
theorem blocksOf_append : ∀ (q : Nat) (l x : List Byte), 16 * q ≤ l.length → blocksOf q (l ++ x) = blocksOf q l
  | 0, _, _, _ => rfl
  | q + 1, l, x, h => by
    simp only [blocksOf]
    rw [List.drop_append_of_le_length (by omega), blocksOf_append q _ _ (by simp; omega)]
    congr 1
    apply Vector.ext; intro i hi
    simp [blockOf, List.getElem?_append, show i < l.length by omega]

/-- The last block of the padded stream is the padded last chunk. -/
theorem blockOf_padStream (p : List Byte) :
    blockOf ((padStream p).drop (16 * (p.length / 16))) =
      padBlock (blockOf (p.drop (16 * (p.length / 16)))) (p.length % 16) := by
  apply Vector.ext; intro i hi
  have e1 : (blockOf ((padStream p).drop (16 * (p.length / 16))))[i] =
      (padStream p).getD (16 * (p.length / 16) + i) 0 := by simp [blockOf]
  have e2 : (blockOf (p.drop (16 * (p.length / 16))))[i] = p.getD (16 * (p.length / 16) + i) 0 := by simp [blockOf]
  have e3 : (padBlock (blockOf (p.drop (16 * (p.length / 16)))) (p.length % 16))[i] =
      if i < p.length % 16 then (blockOf (p.drop (16 * (p.length / 16))))[i]
      else BitVec.ofNat 8 (padLength (p.length % 16)) := by simp [padBlock]
  rw [e1, e3, e2, padStream]
  simp only [List.getD_eq_getElem?_getD, List.getElem?_append, List.getElem?_replicate]
  by_cases h : i < p.length % 16
  · rw [if_pos (by omega), if_pos h]
  · rw [if_neg (by omega), if_pos (by simp only [padLength, Config.blockBytes]; omega), if_neg h]; rfl

end Sys2Proof.Machine
end

