-- ==== Sys2Proof/Laws/Commands.lean ====
section
/-! SUPPORT. What each command answers, by whether its checks pass: one equation for the failing case and one for the
passing case, so that no later proof unfolds a command. -/

namespace Sys2Proof.Machine

/-- The registers after a block command ran the datapath: the fields a block command writes, `st` and `rc` free. -/
theorem blockEffect_eq {u : State} (s : State) (m : SMode)
    (h : ∃ st rc, u = { s with st := st, rc := rc }) :
    (u.captureOut.countBlock m).releaseDatapath =
      { s with
        out := u.st.words, blkcnt := s.blkcnt + 1, smode := m, st := s.releaseDatapath.st, rc := s.releaseDatapath.rc,
        draws := s.draws + 5 } := by
  obtain ⟨st, rc, rfl⟩ := h; rfl

theorem exec_keyInit_error {e : Err} {s : State} (h : keyInitChecks s = some e) :
    exec .keyInit s = .next { s with err := e } := by
  rw [exec, execKeyInit, h, command_some]

theorem exec_keyInit_pass {s : State} (h : keyInitChecks s = none) :
    exec .keyInit s = .next { s with
      kmsg := [], rk := Vector.replicate 8 0, keyValid := false, keyOpen := true, err := .ok } := by
  rw [exec, execKeyInit, h, command_none, succeed_eq]

theorem exec_keyAbsorb_error {e : Err} {n : BitVec 5} {s : State} (h : keyAbsorbChecks n s = some e) :
    exec (.keyAbsorb n) s = .next { s with err := e } := by
  rw [exec, execKeyAbsorb, h, command_some]

theorem exec_keyAbsorb_pass {n : BitVec 5} {s : State} (h : keyAbsorbChecks n s = none) :
    exec (.keyAbsorb n) s = .next { s with kmsg := s.kmsg ++ inPrefix s.inb n.toNat, err := .ok } := by
  rw [exec, execKeyAbsorb, h, command_none, succeed_eq]

theorem exec_keyFinal_error {e : Err} {s : State} (h : keyFinalChecks s = some e) :
    exec .keyFinal s = .next { s with err := e } := by
  rw [exec, execKeyFinal, h, command_some]

theorem exec_keyFinal_pass {s : State} (h : keyFinalChecks s = none) :
    exec .keyFinal s = .next { s with rk := schedule s.kmsg, keyValid := true, keyOpen := false, err := .ok } := by
  rw [exec, execKeyFinal, h, command_none, succeed_eq]

theorem exec_encBlock_error {e : Err} {n : BitVec 5} {s : State}
    (h : blockChecks s.smode.refusesEnc (n != 16) n s = some e) : exec (.encBlock n) s = .next { s with err := e } := by
  rw [exec, execEncBlock, h, command_some]

theorem exec_encBlock_pass {n : BitVec 5} {s : State} (h : blockChecks s.smode.refusesEnc (n != 16) n s = none) :
    exec (.encBlock n) s = .next { s with
      out := (s.runEnc s.inb).st.words, blkcnt := s.blkcnt + 1, smode := .enc, err := .ok,
      st := s.releaseDatapath.st, rc := s.releaseDatapath.rc, draws := s.draws + 5 } := by
  rw [exec, execEncBlock, h, command_none, blockEffect_eq s .enc ⟨_, _, runEnc_frame s s.inb⟩, succeed_eq]

theorem exec_decBlock_error {e : Err} {n : BitVec 5} {s : State}
    (h : blockChecks s.smode.refusesDec (n != 16) n s = some e) : exec (.decBlock n) s = .next { s with err := e } := by
  rw [exec, execDecBlock, h, command_some]

theorem exec_decBlock_pass {n : BitVec 5} {s : State} (h : blockChecks s.smode.refusesDec (n != 16) n s = none) :
    exec (.decBlock n) s = .next { s with
      out := (s.runDec s.inb).st.words, blkcnt := s.blkcnt + 1, smode := .dec, err := .ok,
      st := s.releaseDatapath.st, rc := s.releaseDatapath.rc, draws := s.draws + 5 } := by
  rw [exec, execDecBlock, h, command_none, blockEffect_eq s .dec ⟨_, _, runDec_frame s s.inb⟩, succeed_eq]

theorem exec_encFinal_error {e : Err} {n : BitVec 5} {s : State}
    (h : blockChecks s.smode.refusesEnc (n == 16) n s = some e) : exec (.encFinal n) s = .next { s with err := e } := by
  rw [exec, execEncFinal, h, command_some]

theorem exec_encFinal_pass {n : BitVec 5} {s : State} (h : blockChecks s.smode.refusesEnc (n == 16) n s = none) :
    exec (.encFinal n) s = .next { s with
      out := (s.runEnc (padBlock s.inb n.toNat)).st.words, blkcnt := s.blkcnt + 1,
      padlen := BitVec.ofNat 8 (padLength n.toNat), smode := .done, err := .ok,
      st := s.releaseDatapath.st, rc := s.releaseDatapath.rc, draws := s.draws + 5 } := by
  rw [exec, execEncFinal, h, command_none, blockEffect_eq s .done ⟨_, _, runEnc_frame s _⟩, succeed_eq]

theorem exec_decFinal_error {e : Err} {n : BitVec 5} {s : State}
    (h : blockChecks s.smode.refusesDec (n != 16) n s = some e) : exec (.decFinal n) s = .next { s with err := e } := by
  rw [exec, execDecFinal, h, command_some]

/-- The end of DEC_FINAL on a state whose ST holds the decrypted block. -/
theorem finishDecFinal_eq {u : State} (s : State) (h : ∃ st rc, u = { s with st := st, rc := rc }) :
    finishDecFinal u = .next { s with
      out := if padValid (ser u.st)[15] (16 * (s.blkcnt + 1).toNat) then u.st.words else Vector.replicate 4 0,
      err := if padValid (ser u.st)[15] (16 * (s.blkcnt + 1).toNat) then .ok else .padding,
      blkcnt := s.blkcnt + 1, padlen := (ser u.st)[15], smode := .done,
      st := s.releaseDatapath.st, rc := s.releaseDatapath.rc, draws := s.draws + 5 } := by
  obtain ⟨st, rc, rfl⟩ := h
  rw [finishDecFinal]
  cases padValid (ser st)[15] (16 * (s.blkcnt + 1).toNat) <;> rfl

theorem exec_decFinal_pass {n : BitVec 5} {s : State} (h : blockChecks s.smode.refusesDec (n != 16) n s = none) :
    exec (.decFinal n) s = .next { s with
      out := if padValid (ser (s.runDec s.inb).st)[15] (16 * (s.blkcnt + 1).toNat) then (s.runDec s.inb).st.words
             else Vector.replicate 4 0,
      err := if padValid (ser (s.runDec s.inb).st)[15] (16 * (s.blkcnt + 1).toNat) then .ok else .padding,
      blkcnt := s.blkcnt + 1, padlen := (ser (s.runDec s.inb).st)[15], smode := .done,
      st := s.releaseDatapath.st, rc := s.releaseDatapath.rc, draws := s.draws + 5 } := by
  rw [exec, execDecFinal, h, command_none]
  exact finishDecFinal_eq s ⟨_, _, runDec_frame s s.inb⟩

theorem exec_rotl (k : BitVec 5) (s : State) :
    exec (.rotl k) s = .next { s with out := #v[rotl32 s.in0 k.toNat, 0, 0, 0], err := .ok } := rfl

theorem exec_rotr (k : BitVec 5) (s : State) :
    exec (.rotr k) s = .next { s with out := #v[rotr32 s.in0 k.toNat, 0, 0, 0], err := .ok } := rfl

/-- The checks of each command, in one place. -/
def commandChecks : Instr → State → Option Err
  | .nop, _ => none
  | .keyInit, s => keyInitChecks s
  | .keyAbsorb n, s => keyAbsorbChecks n s
  | .keyFinal, s => keyFinalChecks s
  | .streamInit, _ => none
  | .encBlock n, s => blockChecks s.smode.refusesEnc (n != 16) n s
  | .encFinal n, s => blockChecks s.smode.refusesEnc (n == 16) n s
  | .decBlock n, s => blockChecks s.smode.refusesDec (n != 16) n s
  | .decFinal n, s => blockChecks s.smode.refusesDec (n != 16) n s
  | .rotl _, _ => none
  | .rotr _, _ => none

/-- A command one of whose checks fails reports it and changes nothing else. -/
theorem exec_error {i : Instr} {e : Err} {s : State} (h : commandChecks i s = some e) :
    exec i s = .next { s with err := e } := by
  cases i with
  | nop => cases h
  | keyInit => exact exec_keyInit_error h
  | keyAbsorb n => exact exec_keyAbsorb_error h
  | keyFinal => exact exec_keyFinal_error h
  | streamInit => cases h
  | encBlock n => exact exec_encBlock_error h
  | encFinal n => exact exec_encFinal_error h
  | decBlock n => exact exec_decBlock_error h
  | decFinal n => exact exec_decFinal_error h
  | rotl k => cases h
  | rotr k => cases h

/-- Which codes the checks of a block command can give, and when. -/
theorem blockChecks_some {refused wrong : Bool} {n : BitVec 5} {s : State} {e : Err}
    (h : blockChecks refused wrong n s = some e) :
    (e = .illegal ∧ illegalCount n = true) ∨ (e = .sequence ∧ refused = true) ∨ (e = .nokey ∧ s.keyValid = false) ∨
      e = .length := by
  simp only [blockChecks, firstError_cons, firstError_nil] at h
  split at h
  · cases h; exact .inl ⟨rfl, by assumption⟩
  split at h
  · cases h; exact .inr (.inl ⟨rfl, by assumption⟩)
  split at h
  · rename_i hk; cases h; exact .inr (.inr (.inl ⟨rfl, by simpa using hk⟩))
  split at h
  · cases h; exact .inr (.inr (.inr rfl))
  split at h
  · cases h; exact .inr (.inr (.inr rfl))
  · cases h

end Sys2Proof.Machine
end

