-- ==== Sys2Proof/Laws/Decode.lean ====
section
/-! SUPPORT. The fields of a command word, and the word of its fields (spec/30_encoding.md R80). -/

namespace Sys2Proof

/-- Each field of `commandWord` is what it was built from, and the reserved bits are 0. -/
theorem fields_commandWord (o : BitVec 8) (n s : BitVec 5) :
    fieldOpc (commandWord o n s) = o ∧ fieldN (commandWord o n s) = n ∧ fieldS (commandWord o n s) = s ∧
      fieldRes0 (commandWord o n s) = 0 ∧ fieldRes1 (commandWord o n s) = 0 := by
  simp only [fieldOpc, fieldN, fieldS, fieldRes0, fieldRes1, commandWord]
  refine ⟨?_, ?_, ?_, ?_, ?_⟩ <;>
  · apply BitVec.eq_of_getLsbD_eq
    intro i hi
    simp only [BitVec.getLsbD_extractLsb', BitVec.getLsbD_append]
    interval_cases i <;> simp

/-- A word with reserved bits 0 is the word of its fields. -/
theorem commandWord_fields {w : Word} (h0 : fieldRes0 w = 0) (h1 : fieldRes1 w = 0) :
    commandWord (fieldOpc w) (fieldN w) (fieldS w) = w := by
  rw [commandWord, ← h0, ← h1]
  simp only [fieldOpc, fieldN, fieldS, fieldRes0, fieldRes1]
  apply BitVec.eq_of_getLsbD_eq
  intro i hi
  simp only [BitVec.getLsbD_extractLsb', BitVec.getLsbD_append]
  interval_cases i <;> simp

/-- What the case distinction on the opcode gives is spelt by exactly these fields. -/
theorem decodeOpcode_ok {o : BitVec 8} {n s : BitVec 5} {i : Instr} (h : decodeOpcode o n s = .ok i) :
    encode i = commandWord o n s ∧ (n.toNat ≤ 16 → i.wellFormed = true) := by
  unfold decodeOpcode at h
  split at h <;> (try simp only [needNeither, needNoAmount, needNoCount] at h) <;>
    (repeat' split at h) <;> cases h <;> simp_all [encode, Instr.wellFormed, countOk]

end Sys2Proof
end

