-- ==== Sys2Proof/Laws/HostRuns.lean ====
section
/-! SUPPORT. Runs of host programs, statement by statement: what reading, loading INB, an `expect ERR = OK` and a poll do
to an idle machine and to what the host has collected (spec/30_encoding.md R89). -/

namespace Sys2Proof.Machine

/-- No command is pending, the registers are `r`, and the host is about to execute `prog`. -/
structure HostAt (s : State) (r : Regs) (prog : List HostStep) : Prop where
  idle : s.pend = none
  regs : s.toRegs = r
  host : s.host = prog

/-- Some run leads from `s` to `u`, and the host collects these reads on the way. -/
def Collects (s : State) (reads : List (Offset × Word)) (u : State) : Prop :=
  ∃ k, Host.Core.run Sys2Proof.core k s = .next u ∧ u.collected = s.collected ++ reads

theorem Collects.refl (s : State) : Collects s [] s := ⟨0, rfl, by simp⟩

theorem Collects.trans {s t u : State} {a b : List (Offset × Word)} (h : Collects s a t) (g : Collects t b u) :
    Collects s (a ++ b) u := by
  obtain ⟨j, hj, ha⟩ := h
  obtain ⟨k, hk, hb⟩ := g
  exact ⟨j + k, by rw [run_add hj]; exact hk, by rw [hb, ha, List.append_assoc]⟩

theorem Collects.of_step {s t : State} {a : List (Offset × Word)} (h : step s = .next t)
    (hc : t.collected = s.collected ++ a) : Collects s a t := ⟨1, by rw [run_succ h, run_zero], hc⟩

@[simp] theorem statusBusy_statusWord (s : State) : statusBusy s.statusWord = s.busy := by
  simp only [statusBusy, State.statusWord, BitVec.getLsbD_append]; simp

@[simp] theorem statusErr_statusWord (s : State) : statusErr s.statusWord = s.err.code := by
  apply BitVec.eq_of_getLsbD_eq
  intro i hi
  simp only [statusErr, State.statusWord, BitVec.getLsbD_extractLsb', BitVec.getLsbD_append]
  interval_cases i <;> simp

theorem statusBusy_busyStatus (lost : Bool) (draw : Word) : statusBusy (busyStatus lost draw) = true := by
  simp only [statusBusy, busyStatus, BitVec.getLsbD_append]; simp

/-- The host's read of an idle machine: the register's value, kept. -/
theorem hostRead_idle {s : State} {off : Offset} {n : RegName} (hp : s.pend = none) (hn : regAt off = some n) :
    hostRead off s = (s.regValue n, { s with
      rsp := some ⟨some (s.regValue n), false⟩, collected := s.collected ++ [(off, s.regValue n)] }) := by
  simp only [hostRead, memRead_at hn, readReg_idle (busy_of_none hp)]; rfl

theorem regValue_host (s : State) (l : List HostStep) (n : RegName) : ({ s with host := l } : State).regValue n = s.regValue n := by
  cases n <;> rfl

theorem run_read {s : State} {r : Regs} {off : Offset} {n : RegName} {rest : List HostStep}
    (h : HostAt s r (.read off :: rest)) (hn : regAt off = some n) :
    ∃ u, Collects s [(off, s.regValue n)] u ∧ HostAt u r rest := by
  have e := hostRead_idle (s := { s with host := rest }) h.idle hn
  rw [regValue_host] at e
  refine ⟨(hostRead off { s with host := rest }).2, .of_step ?_ ?_, ?_⟩
  · rw [step_idle h.idle h.host, hostStep, e]; rfl
  · rw [e]
  · rw [e]; exact ⟨h.idle, h.regs, rfl⟩

theorem run_expectOk {s : State} {r : Regs} {rest : List HostStep} (h : HostAt s r (.expectErr .ok :: rest))
    (hr : r.err = .ok) : ∃ u v, Collects s [(statusOffset, v)] u ∧ HostAt u r rest := by
  have e := hostRead_idle (s := { s with host := rest }) h.idle (show regAt statusOffset = some .status from rfl)
  have ok : statusErr (hostRead statusOffset { s with host := rest }).1 = Err.ok.code := by
    rw [e]; simp only [State.regValue, statusErr_statusWord]; rw [h.regs, hr]
  refine ⟨(hostRead statusOffset { s with host := rest }).2, _, .of_step ?_ (by rw [e]), ?_⟩
  · rw [step_idle h.idle h.host, hostStep, if_pos ok]
  · rw [e]; exact ⟨h.idle, h.regs, rfl⟩

theorem run_writeIn {s : State} {r : Regs} {k : Fin 4} {v : Word} {rest : List HostStep}
    (h : HostAt s r (wr (BitVec.ofNat 8 (0x20 + 4 * k)) v :: rest)) :
    ∃ u, Collects s [] u ∧ HostAt u { r with inb := setInWord r.inb k v } rest := by
  refine ⟨{ s with inb := setInWord s.inb k v, host := rest, rsp := some ⟨none, false⟩ }, .of_step ?_ (by simp), h.idle,
    by rw [← h.regs], rfl⟩
  rw [step_idle h.idle h.host, wr, hostStep, memWrite_at (regAt_inWord k)]
  simp only [writeReg, busy_of_none (s := { s with host := rest }) h.idle]; rfl

/-- Loading a block leaves it in INB, and changes no other register. -/
theorem run_ldBlock {s : State} {r : Regs} {b : Block} {rest : List HostStep} (h : HostAt s r (ldBlock b ++ rest)) :
    ∃ u, Collects s [] u ∧ HostAt u { r with inb := b } rest := by
  obtain ⟨u1, g1, a1⟩ := run_writeIn (k := 0) h
  obtain ⟨u2, g2, a2⟩ := run_writeIn (k := 1) a1
  obtain ⟨u3, g3, a3⟩ := run_writeIn (k := 2) a2
  obtain ⟨u4, g4, a4⟩ := run_writeIn (k := 3) a3
  refine ⟨u4, ((g1.trans g2).trans g3).trans g4, a4.idle, ?_, a4.host⟩
  rw [a4.regs]; simp only [setInWord_deser]

theorem outBytesRead_append (a b : List (Offset × Word)) : outBytesRead (a ++ b) = outBytesRead a ++ outBytesRead b := by
  simp [outBytesRead]

theorem outBytes_toList (r : Regs) :
    r.outBytes.toList = laneBytes r.out[0] ++ laneBytes r.out[1] ++ laneBytes r.out[2] ++ laneBytes r.out[3] := by
  apply List.ext_getElem
  · simp [laneBytes]
  · intro i h1 h2
    simp at h1
    interval_cases i <;> simp [Regs.outBytes, laneBytes]

/-- `rdout` collects the bytes of OUT. -/
theorem run_rdout {s : State} {r : Regs} {rest : List HostStep} (h : HostAt s r (rdout ++ rest)) :
    ∃ u reads, Collects s reads u ∧ HostAt u r rest ∧ outBytesRead reads = r.outBytes.toList := by
  obtain ⟨u1, g1, a1⟩ := run_read (n := .outWord 0) h rfl
  obtain ⟨u2, g2, a2⟩ := run_read (n := .outWord 1) a1 rfl
  obtain ⟨u3, g3, a3⟩ := run_read (n := .outWord 2) a2 rfl
  obtain ⟨u4, g4, a4⟩ := run_read (n := .outWord 3) a3 rfl
  refine ⟨u4, _, ((g1.trans g2).trans g3).trans g4, a4, ?_⟩
  rw [outBytes_toList]
  simp only [outBytesRead, State.regValue, h.regs, a1.regs, a2.regs, a3.regs]
  simp

/-- Reads of STATUS alone, as a poll or an `expect` makes them: they carry no byte of OUT. -/
def StatusReads (reads : List (Offset × Word)) : Prop := ∀ r ∈ reads, r.1 = statusOffset

theorem StatusReads.noOut {reads : List (Offset × Word)} (h : StatusReads reads) : outBytesRead reads = [] := by
  simp only [outBytesRead, List.flatMap_eq_nil_iff]
  intro r hr; rw [h r hr]; rfl

/-- A poll of a pending command, whatever LAT is left, reads STATUS until the command has completed. -/
theorem run_poll {s : State} {r : Regs} {rest : List HostStep} (hp : s.pend = some r) (hs : s.lost = false)
    (hr : r.lost = false) (hh : s.host = .poll :: rest) :
    ∃ u reads, Collects s reads u ∧ HostAt u r rest ∧ StatusReads reads := by
  induction hl : s.lat generalizing s with
  | zero =>
    have e : step s = .next (complete r s) := by simp only [step, advance, hp, hl, if_true]
    have er : hostRead statusOffset { complete r s with host := rest } = _ :=
      hostRead_idle rfl (show regAt statusOffset = some .status from rfl)
    have ep : step (complete r s) = .next (hostRead statusOffset { complete r s with host := rest }).2 := by
      rw [step_idle rfl (show (complete r s).host = _ from hh), hostStep]
      have : statusBusy (hostRead statusOffset { complete r s with host := rest }).1 = false := by
        rw [er]; simp only [State.regValue, statusBusy_statusWord]; rfl
      simp only [this]; rfl
    have f := hostRead_frame statusOffset { complete r s with host := rest }
    refine ⟨_, _, (Collects.of_step (a := []) e (by simp [complete])).trans (.of_step ep rfl), ⟨?_, ?_, f.2.2.2⟩, ?_⟩
    · rw [f.2.1]; rfl
    · rw [f.1]; show ({ r with lost := s.lost } : Regs) = r; rw [hs, ← hr]
    · intro x hx; simp only [List.nil_append, List.mem_singleton] at hx; rw [hx]
  | succ n ih =>
    have hb : ({ s with host := rest, lat := s.lat - 1 } : State).busy = true := busy_of_some hp
    have f := hostRead_frame statusOffset { s with host := rest, lat := s.lat - 1 }
    have e : step s = .next { (hostRead statusOffset { s with host := rest, lat := s.lat - 1 }).2 with
        host := .poll :: (hostRead statusOffset { s with host := rest, lat := s.lat - 1 }).2.host } := by
      rw [step_busy hp (by omega) hh, hostStep]
      have : statusBusy (hostRead statusOffset { s with host := rest, lat := s.lat - 1 }).1 = true := by
        simp only [hostRead, memRead_at (show regAt statusOffset = some .status from rfl)]
        rw [readReg_drawn hb rfl]; exact statusBusy_busyStatus _ _
      simp only [this]; rfl
    obtain ⟨u, reads, hg, hu, hsr⟩ := ih
      (s := { (hostRead statusOffset { s with host := rest, lat := s.lat - 1 }).2 with
        host := .poll :: (hostRead statusOffset { s with host := rest, lat := s.lat - 1 }).2.host })
      (by show (hostRead _ _).2.pend = _; rw [f.2.1]; exact hp) (by show (hostRead _ _).2.lost = _; rw [f.1]; exact hs)
      (by show _ :: (hostRead _ _).2.host = _; rw [f.2.2.2]) (by show (hostRead _ _).2.lat = n; rw [f.2.2.1]; simp [hl])
    refine ⟨u, _, (Collects.of_step e rfl).trans hg, hu, ?_⟩
    intro x hx
    rcases List.mem_append.mp hx with hx | hx
    · rw [List.mem_singleton.mp hx]
    · exact hsr x hx

end Sys2Proof.Machine
end

