-- ==== Sys2Proof/Laws/PerInstr.lean ====
section
/-! SUPPORT. One family of statements about every command as syntax: its word spells the row of the opcode map that
carries its mnemonic (spec/30_encoding.md R84). -/

namespace Sys2Proof.Laws.RowEncoding

/-- The word of a command with a legal N spells the row of its own mnemonic. -/
def Statement (i : Instr) : Prop :=
  i.wellFormed = true → ∃ r ∈ opcodeMap, r.mnemonic = i.mnemonic ∧ r.spells (encode i) = true

theorem nop : Statement .nop := by unfold Statement; decide

theorem keyInit : Statement .keyInit := by unfold Statement; decide

theorem keyAbsorb (n : BitVec 5) : Statement (.keyAbsorb n) := by unfold Statement; revert n; decide

theorem keyFinal : Statement .keyFinal := by unfold Statement; decide

theorem streamInit : Statement .streamInit := by unfold Statement; decide

theorem encBlock (n : BitVec 5) : Statement (.encBlock n) := by unfold Statement; revert n; decide

theorem encFinal (n : BitVec 5) : Statement (.encFinal n) := by unfold Statement; revert n; decide

theorem decBlock (n : BitVec 5) : Statement (.decBlock n) := by unfold Statement; revert n; decide

theorem decFinal (n : BitVec 5) : Statement (.decFinal n) := by unfold Statement; revert n; decide

theorem rotl (s : BitVec 5) : Statement (.rotl s) := by unfold Statement; revert s; decide

theorem rotr (s : BitVec 5) : Statement (.rotr s) := by unfold Statement; revert s; decide

end Sys2Proof.Laws.RowEncoding
end

