-- ==== Sys2Proof/Machine/Asm.lean ====
section
/-! DEFINITION. The assembler syntax of spec/30_encoding.md R88, on a line already cut into its words (log entry 14). -/

namespace Sys2Proof.Machine

/-- The value of a decimal digit. -/
def decDigit (c : Char) : Option Nat := if '0' ≤ c ∧ c ≤ '9' then some (c.toNat - '0'.toNat) else none

/-- The value of a hexadecimal digit, of either case. -/
def hexDigit (c : Char) : Option Nat :=
  if '0' ≤ c ∧ c ≤ '9' then some (c.toNat - '0'.toNat)
  else if 'a' ≤ c ∧ c ≤ 'f' then some (c.toNat - 'a'.toNat + 10)
  else if 'A' ≤ c ∧ c ≤ 'F' then some (c.toNat - 'A'.toNat + 10)
  else none

/-- Digits in a base, most significant first, on top of the value read so far. -/
def digitsFrom (digit : Char → Option Nat) (base : Nat) : Nat → List Char → Option Nat
  | acc, [] => some acc
  | acc, c :: rest =>
    match digit c with
    | some d => digitsFrom digit base (acc * base + d) rest
    | none => none

/-- A number: "decimal or `0x` hexadecimal" (R88). -/
def parseNumber : List Char → Option Nat
  | [] => none
  | '0' :: 'x' :: [] => none
  | '0' :: 'x' :: rest => digitsFrom hexDigit 16 0 rest
  | digits => digitsFrom decDigit 10 0 digits

/-- An operand: a number that its 5-bit field can hold (R81, R82). -/
def parseOperand (w : String) : Option (BitVec 5) :=
  match parseNumber w.toList with
  | some v => if v < 32 then some (BitVec.ofNat 5 v) else none
  | none => none

/-- A command line of R88. The operand of ENC_BLOCK, DEC_BLOCK and DEC_FINAL "is optional and defaults to 16". -/
def assemble : List String → Option Instr
  | ["NOP"] => some .nop
  | ["KEY_INIT"] => some .keyInit
  | ["KEY_ABSORB", n] => (parseOperand n).map .keyAbsorb
  | ["KEY_FINAL"] => some .keyFinal
  | ["STREAM_INIT"] => some .streamInit
  | ["ENC_BLOCK"] => some (.encBlock 16)
  | ["ENC_BLOCK", n] => (parseOperand n).map .encBlock
  | ["ENC_FINAL", n] => (parseOperand n).map .encFinal
  | ["DEC_BLOCK"] => some (.decBlock 16)
  | ["DEC_BLOCK", n] => (parseOperand n).map .decBlock
  | ["DEC_FINAL"] => some (.decFinal 16)
  | ["DEC_FINAL", n] => (parseOperand n).map .decFinal
  | ["ROTL", s] => (parseOperand s).map .rotl
  | ["ROTR", s] => (parseOperand s).map .rotr
  | _ => none

end Sys2Proof.Machine
end

