-- ==== Sys2Proof/Tests/Slice0.lean ====
section
/-! SUPPORT. Named tests. Expected values are those of spec/30_encoding.md R84 and spec/95_test_vectors.md; the parts are
well-formedness and decoding, the functions, one command each, the bus and the handshake, and a witness for every
statement that has hypotheses. -/

namespace Sys2Proof.Tests

open Sys2Proof.Machine

/-! ### Well-formedness: one ill-formed term for each check (R81) -/

theorem test_wellFormed_refuses_count_17 :
    (Instr.keyAbsorb 17).wellFormed = false ∧ (Instr.encBlock 17).wellFormed = false ∧
    (Instr.encFinal 17).wellFormed = false ∧ (Instr.decBlock 31).wellFormed = false ∧
    (Instr.decFinal 17).wellFormed = false := by decide

theorem test_wellFormed_allows_the_bounds :
    (Instr.keyAbsorb 16).wellFormed = true ∧ (Instr.encFinal 0).wellFormed = true ∧ (Instr.rotl 31).wellFormed = true := by
  decide

/-! ### Decoding: words written out field by field, RES1 S RES0 N OPC (R80, R84) -/

theorem test_decode_nop : decode 0b00000000000_00000_000_00000_00000000 = .ok .nop := by decide

theorem test_decode_keyInit : decode 0b00000000000_00000_000_00000_00010000 = .ok .keyInit := by decide

theorem test_decode_keyAbsorb : decode 0b00000000000_00000_000_00111_00010001 = .ok (.keyAbsorb 7) := by decide

theorem test_decode_keyFinal : decode 0b00000000000_00000_000_00000_00010010 = .ok .keyFinal := by decide

theorem test_decode_streamInit : decode 0b00000000000_00000_000_00000_00100000 = .ok .streamInit := by decide

theorem test_decode_encBlock : decode 0b00000000000_00000_000_10000_00110000 = .ok (.encBlock 16) := by decide

theorem test_decode_encFinal : decode 0b00000000000_00000_000_00101_00110001 = .ok (.encFinal 5) := by decide

theorem test_decode_decBlock : decode 0b00000000000_00000_000_01000_01000000 = .ok (.decBlock 8) := by decide

theorem test_decode_decFinal : decode 0b00000000000_00000_000_00001_01000001 = .ok (.decFinal 1) := by decide

theorem test_decode_rotl : decode 0b00000000000_00011_000_00000_01010000 = .ok (.rotl 3) := by decide

theorem test_decode_rotr : decode 0b00000000000_11111_000_00000_01010001 = .ok (.rotr 31) := by decide

/-- The words that 95 L2.7 calls illegal, each refused for its own reason. -/
theorem test_decode_illegal_words :
    decode 0x00000100 = .error .unusedCount ∧ decode 0x00002000 = .error .reservedBits ∧
    decode 0x80000000 = .error .reservedBits ∧ decode 0x80000030 = .error .reservedBits ∧
    decode 0x000000FF = .error .unassignedOpcode ∧ decode 0x00000013 = .error .unassignedOpcode ∧
    decode 0x00000110 = .error .unusedCount ∧ decode 0x00010011 = .error .unusedAmount ∧
    decode 0x00000150 = .error .unusedCount ∧ decode 0x00001111 = .error .countTooLarge ∧
    decode 0x00200050 = .error .reservedBits := by decide

/-- The words of R84's table of "canonical full words", from the encoder. -/
theorem test_encode_printed_words :
    encode (.encBlock 15) = 0x00000F30 ∧ encode (.decFinal 16) = 0x00001041 ∧ encode (.keyAbsorb 4) = 0x00000411 ∧
    encode (.rotr 2) = 0x00020051 ∧ encode .streamInit = 0x00000020 := by decide

/-- Command lines of R88, with decimal, hexadecimal and defaulted operands. -/
theorem test_assemble_lines :
    assemble ["KEY_ABSORB", "7"] = some (.keyAbsorb 7) ∧ assemble ["ROTL", "0x1F"] = some (.rotl 31) ∧
    assemble ["ENC_BLOCK"] = some (.encBlock 16) ∧ assemble ["DEC_FINAL", "1"] = some (.decFinal 1) ∧
    assemble ["ROTR", "32"] = none ∧ assemble ["KEY_ABSORB"] = none := by decide

/-! ### The functions (95 L2.1 to L2.5) -/

theorem test_rotl32 :
    rotl32 0x12345678 3 = 0x91A2B3C0 ∧ rotl32 0x12345678 31 = 0x091A2B3C ∧ rotl32 0x12345678 32 = 0x12345678 ∧
    rotl32 0x12345678 33 = 0x2468ACF0 ∧ rotl32 0x80000001 1 = 0x00000003 := by decide

theorem test_rotr32 :
    rotr32 0x12345678 2 = 0x048D159E ∧ rotr32 0x12345678 31 = 0x2468ACF0 ∧ rotr32 0x12345678 32 = 0x12345678 ∧
    rotr32 0x12345678 33 = 0x091A2B3C ∧ rotr32 0x80000001 1 = 0xC0000000 := by decide

/-- Key `00 01 .. 10`, 17 bytes. -/
theorem test_schedule_17_bytes :
    schedule ((List.range 17).map (BitVec.ofNat 8)) =
      #v[0x3E5718FE, 0xA51A8F3F, 0x5BACA61C, 0x77AFAB47, 0x3C1810F8, 0xB9DB3302, 0x73B4011C, 0xE92C787E] := by
  decide +kernel

/-- Keys of 'a' at the two sides of the one-block limit. -/
theorem test_schedule_55_and_56_bytes :
    schedule (List.replicate 55 0x61) =
      #v[0x9F4390F8, 0xD30C2DD9, 0x2EC9F095, 0xB65E2B9A, 0xE9B0A925, 0xA5258E24, 0x1C9F1E91, 0x0F734318] ∧
    schedule (List.replicate 56 0x61) =
      #v[0xB35439A4, 0xAC6F0948, 0xB6D6F9E3, 0xC6AF0F5F, 0x590CE20F, 0x1BDE7090, 0xEF797068, 0x6EC6738A] := by
  decide +kernel

theorem test_roundFn :
    roundFn ⟨1, 2, 3, 4⟩ 0x98483C6E = ⟨0xC241E394, 0x98483C71, 0x98483C6F, 0x309078E6⟩ ∧
    roundFn ⟨0x80000000, 0x80000000, 0, 0xFFFFFFFF⟩ 0 = ⟨0, 0, 0x80000000, 0xFFFFFFFF⟩ := by decide

theorem test_invRoundFn : invRoundFn ⟨0xC241E394, 0x98483C71, 0x98483C6F, 0x309078E6⟩ 0x98483C6E = ⟨1, 2, 3, 4⟩ := by
  decide

/-- "Hello" with n = 5, the other bytes stale. -/
theorem test_padBlock_hello :
    (padBlock #v[0x48, 0x65, 0x6c, 0x6c, 0x6f, 0xbe, 0xad, 0xde, 0, 0, 0, 0, 0, 0, 0, 0] 5).toList =
      [0x48, 0x65, 0x6c, 0x6c, 0x6f, 11, 11, 11, 11, 11, 11, 11, 11, 11, 11, 11] := by decide

theorem test_padValid :
    padValid 0 16 = false ∧ padValid 1 16 = true ∧ padValid 16 16 = true ∧ padValid 17 16 = false ∧
    padValid 17 32 = true ∧ padValid 255 256 = true ∧ padValid 255 240 = false := by decide

/-! ### One command each -/

/-- The schedule of "testkey" (95 L2.2). -/
def testRk : Schedule :=
  #v[0x98483C6E, 0xB40B6C31, 0xA448C22A, 0x66DED3B5, 0xE5E8D511, 0x9CAC8327, 0xB655C8B5, 0xC4836489]

/-- Reset, "testkey" loaded, these stream values, and these words in IN0..IN3. -/
def keyed (m : SMode) (count : Word) (w0 w1 w2 w3 : Word) : State :=
  { State.reset with
    rk := testRk, keyValid := true, smode := m, blkcnt := count,
    inb := setInWord (setInWord (setInWord (setInWord State.reset.inb 0 w0) 1 w1) 2 w2) 3 w3 }

/-- What the host can see of an outcome: OUT, STATUS, BLKCNT, PADLEN, KEYLEN. -/
def seen (o : Result) : Option (Vector Word 4 × Word × Word × Byte × Word) :=
  match o with
  | .next s => some (s.out, s.statusWord, s.blkcnt, s.padlen, s.keylen)
  | .fault _ => none
  | .refused _ => none

/-- `NOP` with STATUS 0x00000332. -/
theorem test_nop : seen (exec .nop { keyed .done 1 0 0 0 0 with err := .padding }) =
    some (#v[0, 0, 0, 0], 0x00000032, 1, 0, 0) := by decide

/-- KEY_INIT in SMODE DONE. -/
theorem test_keyInit_in_done : seen (exec .keyInit (keyed .done 1 0 0 0 0)) =
    some (#v[0, 0, 0, 0], 0x00000034, 1, 0, 0) := by decide

theorem test_keyInit_in_stream : seen (exec .keyInit (keyed .enc 1 0 0 0 0)) =
    some (#v[0, 0, 0, 0], 0x00000512, 1, 0, 0) := by decide

/-- Program P1, line `do KEY_ABSORB 7`. -/
theorem test_keyAbsorb_7 :
    seen (exec (.keyAbsorb 7) { keyed .idle 0 0x74736574 0x0079656B 0 0 with keyValid := false, keyOpen := true }) =
      some (#v[0, 0, 0, 0], 0x00000004, 0, 0, 7) := by decide

theorem test_keyAbsorb_closed : seen (exec (.keyAbsorb 4) State.reset) = some (#v[0, 0, 0, 0], 0x00000500, 0, 0, 0) := by
  decide

/-- `KEY_INIT; KEY_FINAL`, the empty key: STATUS 0x00000002 and the empty-key row of L2.2. -/
theorem test_keyFinal_empty_key :
    andThen (exec .keyInit State.reset) (exec .keyFinal) = .next { State.reset with
      keyValid := true, keyOpen := false
      rk := #v[0xE3B0C442, 0x98FC1C14, 0x9AFBF4C8, 0x996FB924, 0x27AE41E4, 0x649B934C, 0xA495991B, 0x7852B855] } := by
  have h : schedule [] =
      #v[0xE3B0C442, 0x98FC1C14, 0x9AFBF4C8, 0x996FB924, 0x27AE41E4, 0x649B934C, 0xA495991B, 0x7852B855] := by
    decide +kernel
  rw [exec_keyInit_pass rfl, andThen_of_next, exec_keyFinal_pass rfl, h]; rfl

theorem test_keyFinal_closed : seen (exec .keyFinal State.reset) = some (#v[0, 0, 0, 0], 0x00000500, 0, 0, 0) := by decide

/-- `STREAM_INIT` in SMODE DEC with BLKCNT 1. -/
theorem test_streamInit : seen (exec .streamInit { keyed .dec 1 0 0 0 0 with out := #v[1, 2, 3, 4], padlen := 5 }) =
    some (#v[1, 2, 3, 4], 0x00000002, 0, 0, 0) := by decide

theorem test_encBlock : seen (exec (.encBlock 16) (keyed .idle 0 0x41414141 0x41414141 0x41414141 0x41414141)) =
    some (#v[0x10C79F21, 0x2A781594, 0xCACDDD8F, 0x24C0C3D4], 0x00000012, 1, 0, 0) := by decide

/-- The count is saturated: "LENGTH; BLKCNT stays 0xFFFFFFFF". -/
theorem test_encBlock_saturated : seen (exec (.encBlock 16) (keyed .enc 0xFFFFFFFF 0 0 0 0)) =
    some (#v[0, 0, 0, 0], 0x00000212, 0xFFFFFFFF, 0, 0) := by decide

/-- Program P7, "Hello" with stale bytes. -/
theorem test_encFinal_hello : seen (exec (.encFinal 5) (keyed .idle 0 0x6C6C6548 0xDEADBE6F 0 0)) =
    some (#v[0x7C65AA1E, 0x5E2CD2EA, 0xC4F0F769, 0xBB62F209], 0x00000032, 1, 11, 0) := by decide

theorem test_encFinal_16 : seen (exec (.encFinal 16) (keyed .idle 0 0 0 0 0)) =
    some (#v[0, 0, 0, 0], 0x00000202, 0, 0, 0) := by decide

theorem test_decBlock : seen (exec (.decBlock 16) (keyed .idle 0 0x10C79F21 0x2A781594 0xCACDDD8F 0x24C0C3D4)) =
    some (#v[0x41414141, 0x41414141, 0x41414141, 0x41414141], 0x00000022, 1, 0, 0) := by decide

/-- `DEC_BLOCK 8`: InvalidCiphertextLength. -/
theorem test_decBlock_short : seen (exec (.decBlock 8) (keyed .idle 0 0 0 0 0)) =
    some (#v[0, 0, 0, 0], 0x00000202, 0, 0, 0) := by decide

/-- L2.6: pads 16 (valid) and 17 (PADDING) of a single block; P8: pad 20 of two blocks (valid). -/
theorem test_decFinal_pads :
    seen (exec (.decFinal 16) (keyed .idle 0 0xD533DDA1 0x4471CB2A 0xCB3F2FE9 0x966C4230)) =
      some (#v[0, 0, 0, 0x10000000], 0x00000032, 1, 16, 0) ∧
    seen (exec (.decFinal 16) (keyed .idle 0 0xD533DDA1 0x4471CB2A 0xCB3F2FE9 0x966C4330)) =
      some (#v[0, 0, 0, 0], 0x00000332, 1, 17, 0) ∧
    seen (exec (.decFinal 16) (keyed .dec 1 0xD533DDA1 0x4471CB2A 0xCB3F2FE9 0x966C4630)) =
      some (#v[0, 0, 0, 0x14000000], 0x00000032, 2, 20, 0) :=
  ⟨by decide, by decide, by decide⟩

/-- The pad byte 0 of P4c, and the priority row `DEC_FINAL 1` of L2.7. -/
theorem test_decFinal_refusals :
    seen (exec (.decFinal 16) (keyed .idle 0 0xD533DDA1 0x4471CB2A 0xCB3F2FE9 0x966C3230)) =
      some (#v[0, 0, 0, 0], 0x00000332, 1, 0, 0) ∧
    seen (exec (.decFinal 1) State.reset) = some (#v[0, 0, 0, 0], 0x00000400, 0, 0, 0) := by decide

/-- L2.1's command rows, in any state and without a key. -/
theorem test_rotl : seen (exec (.rotl 3) { keyed .enc 1 0x12345678 9 9 9 with out := #v[1, 2, 3, 4] }) =
    some (#v[0x91A2B3C0, 0, 0, 0], 0x00000012, 1, 0, 0) := by decide

theorem test_rotr : seen (exec (.rotr 31) { State.reset with inb := (keyed .idle 0 0x12345678 0 0 0).inb }) =
    some (#v[0x2468ACF0, 0, 0, 0], 0x00000000, 0, 0, 0) := by decide

/-- R207's example `ENC_BLOCK 3` in DONE without a key: SEQUENCE before NOKEY and LENGTH. -/
theorem test_priority_sequence_first : seen (exec (.encBlock 3) { State.reset with smode := .done }) =
    some (#v[0, 0, 0, 0], 0x00000530, 0, 0, 0) := by decide

/-! ### The bus and the handshake (95 L2.8) -/

/-- What the host's next step leaves: STATUS, BLKCNT, whether a command is pending, and IN0. -/
def stepped (o : Result) : Option (Word × Word × Bool × Word) :=
  match o with
  | .next s => some (s.statusWord, s.blkcnt, s.busy, s.in0)
  | .fault _ => none
  | .refused _ => none

/-- A command placed at reset is what the next step accepts and runs: KEY_INIT, whose result waits in PEND. -/
theorem test_step_runs_placed_word :
    (match step (State.reset.withFetchWord 32 0x00000010) with
      | .next s => s.pend.map fun r => (r.keyOpen, r.err, r.lost)
      | .fault _ => none
      | .refused _ => none) = some (true, .ok, false) := by decide

/-- The table gives short rows no upper bits: `decodeTableWord` reads them as 0. -/
theorem test_decodeTableWord : decodeTableWord 32 0x00030050 = some (.rotl 3) ∧ decodeTableWord 8 0x10 = some .keyInit ∧
    decodeTableWord 32 0x00000013 = none := by decide

/-- STREAM_INIT pending on the machine of H1 and H2, whose LAT has `n` steps to go. -/
def pendingInit (n : Nat) (prog : List HostStep) : State :=
  { keyed .done 1 5 0 0 0 with
    pend := some { (keyed .idle 0 5 0 0 0).toRegs with err := .ok }, lat := n, host := prog }

/-- H1: Complete: "STATUS = 0x00000002, BLKCNT = 0". -/
theorem test_complete : stepped (step (pendingInit 0 [])) = some (0x00000002, 0, false, 5) := by decide

/-- H2: a write to IN0 while busy is ignored and sets LOST, which completion keeps. -/
theorem test_write_while_busy :
    stepped (step (pendingInit 1 [wr 0x20 0x11111111])) = some (0x00010033, 1, true, 5) ∧
    stepped (andThen (step (pendingInit 1 [wr 0x20 0x11111111])) step) = some (0x00010002, 0, false, 5) := by decide

/-- H5: a byte write and a read at 0x22 are refused, and the host's step is a fault. -/
theorem test_refused :
    (match step { State.reset with host := [.write 0x20 0b0001 7] } with
      | .fault f => some f
      | .next _ => none
      | .refused _ => none) = some (.refusedTransaction 0x20) ∧
    (memRead 0x22 State.reset).1 = 0 ∧ (memRead 0x22 State.reset).2.wasRefused = true := by decide

/-- H6: reset in the middle of a command. -/
theorem test_reset_while_busy : stepped (step (pendingInit 3 [.reset])) = some (0x00000000, 0, false, 0) := by decide

/-- H7: reserved offsets and CMD read 0, and writes to STATUS, OUT0 and RK0 are ignored. -/
theorem test_reserved_and_read_only :
    (memRead 0x14 (keyed .enc 1 5 6 7 8)).1 = 0 ∧ (memRead 0xFC (keyed .enc 1 5 6 7 8)).1 = 0 ∧
    (memRead 0x00 (keyed .enc 1 5 6 7 8)).1 = 0 ∧
    stepped (step { keyed .enc 1 5 6 7 8 with host := [wr 0x04 0xFFFFFFFF] }) = some (0x00000012, 1, false, 5) ∧
    seen (memWrite 0x30 0b1111 9 State.reset) = some (#v[0, 0, 0, 0], 0, 0, 0, 0) ∧
    (memRead 0x40 (keyed .enc 1 5 6 7 8)).1 = 0x98483C6E := by decide

/-- `expect ERR = 1` on a machine whose ERR is OK stops the host program. -/
theorem test_expect_fails :
    (match step { State.reset with host := [.expectErr .illegal] } with
      | .fault f => some f
      | .next _ => none
      | .refused _ => none) = some (.expectationFailed .illegal) := by decide

/-! ### Witnesses: for every statement with hypotheses, a state and operands that meet them, clause by clause -/

theorem witness_DecodeOfEncode :
    (Instr.keyAbsorb 16).wellFormed = true ∧ (Instr.encFinal 0).wellFormed = true ∧ Instr.nop.wellFormed = true := by decide

theorem witness_EncodeOfDecode : decode 0x00001030 = .ok (.encBlock 16) ∧ decode 0x001F0051 = .ok (.rotr 31) := by decide

/-- A row that the word spells, and two words at the edge of the row's N. -/
theorem witness_OpcodeMapIsTheDecoder :
    ∃ r ∈ opcodeMap, r.spells 0x00001031 = true ∧ r.spells 0x00001131 = false ∧ r.mnemonic = "ENC_FINAL" := by decide

theorem witness_IllegalWordOnlySetsErr :
    (∀ r ∈ opcodeMap, r.spells 0x80000030 = false) ∧ (∀ r ∈ opcodeMap, r.spells 0x00001111 = false) ∧
    ∀ r ∈ opcodeMap, r.spells 0x000000FF = false := by decide

/-- Amounts at both edges, and at an edge of "mod 32". -/
theorem witness_RotationsAreInverse : (1 : Nat) % 32 ≠ 0 ∧ (31 : Nat) % 32 ≠ 0 ∧ (33 : Nat) % 32 ≠ 0 ∧ (31 : Nat) < 32 := by
  decide

theorem witness_RotlCompletes : (0 : Nat) < 32 ∧ (31 : Nat) < 32 := by decide

theorem witness_RotrCompletes : (0 : Nat) < 32 ∧ (31 : Nat) < 32 := by decide

theorem witness_KeyInitStartsAKey :
    (keyed .idle 0 0 0 0 0).smode = .idle ∧ (keyed .done 1 0 0 0 0).smode = .done ∧
    (keyed .enc 1 0 0 0 0).smode = .enc ∧ (keyed .dec 1 0 0 0 0).smode = .dec := by decide

/-- Key open, with this many bytes absorbed (the symbolic states of L2.2). -/
def opened (len : Nat) : State := { State.reset with keyOpen := true, kmsg := List.replicate len 0 }

theorem opened_length (len : Nat) : (opened len).kmsg.length = len := List.length_replicate

/-- Closed; open with no bytes, all 16, and the three that reach KEYLEN = 0xFFFFFFFF; open with one byte too many. -/
theorem witness_KeyAbsorbAppendsBytes :
    ((4 : BitVec 5).toNat ≤ 16 ∧ State.reset.keyOpen = false) ∧
    ((0 : BitVec 5).toNat ≤ 16 ∧ (opened 0).keyOpen = true ∧ (opened 0).kmsg.length + (0 : BitVec 5).toNat ≤ 2 ^ 32 - 1) ∧
    ((16 : BitVec 5).toNat ≤ 16 ∧ (opened 1).keyOpen = true ∧ (opened 1).kmsg.length + (16 : BitVec 5).toNat ≤ 2 ^ 32 - 1) ∧
    ((opened (2 ^ 32 - 4)).keyOpen = true ∧ (opened (2 ^ 32 - 4)).kmsg.length + (3 : BitVec 5).toNat ≤ 2 ^ 32 - 1) ∧
    ((opened (2 ^ 32 - 1)).keyOpen = true ∧ 2 ^ 32 - 1 < (opened (2 ^ 32 - 1)).kmsg.length + (1 : BitVec 5).toNat) := by
  simp only [opened_length]; decide

theorem witness_KeyFinalLoadsSchedule :
    (opened 0).keyOpen = true ∧ State.reset.keyOpen = false ∧ RegsInv (opened 0).toRegs :=
  ⟨rfl, rfl, by constructor <;> simp [opened, State.reset, Regs.reset, SMode.inProgress]⟩

/-- "testkey" as 3 + 4 bytes (L2.2). -/
theorem witness_AbsorbingInPiecesConcatenates :
    (opened 0).keyOpen = true ∧
    (∀ p ∈ [((keyed .idle 0 0x00736574 0 0 0).inb, (3 : BitVec 5)), ((keyed .idle 0 0x79656B74 0 0 0).inb, 4)],
      p.2.toNat ≤ 16) ∧
    (opened 0).kmsg.length + ([3, 4] : List Nat).sum ≤ 2 ^ 32 - 1 := by decide

/-- A length whose padded form ends in the same block, and one whose bit length fits in 8 bytes. -/
theorem witness_ShaPaddingShape : (55 + 1 + 0) % 64 = 56 ∧ (56 + 1 + 63) % 64 = 56 ∧ 8 * 56 < 2 ^ 64 := by decide

theorem witness_SerializerInvertsDeserializer :
    ({ Regs.reset with out := #v[1, 2, 3, 4] } : Regs).out = #v[(⟨1, 2, 3, 4⟩ : CipherState).a, 2, 3, 4] := rfl

theorem witness_PaddingShape : (0 : Nat) ≤ 15 ∧ (15 : Nat) ≤ 15 := by decide

/-- Each clause: the two refusing modes, no key, a wrong N, a full count, and a block let through at both ends. -/
theorem witness_EncBlockCompletes :
    (16 : BitVec 5).toNat ≤ 16 ∧ (keyed .dec 1 0 0 0 0).smode = .dec ∧ (keyed .done 1 0 0 0 0).smode = .done ∧
    (State.reset.smode = .idle ∧ State.reset.keyValid = false) ∧
    ((keyed .enc 1 0 0 0 0).smode = .enc ∧ (keyed .enc 1 0 0 0 0).keyValid = true ∧ (15 : BitVec 5) ≠ 16) ∧
    (keyed .enc 0xFFFFFFFF 0 0 0 0).blkcnt = 0xFFFFFFFF ∧
    ((keyed .idle 0 0 0 0 0).keyValid = true ∧ (keyed .idle 0 0 0 0 0).blkcnt ≠ 0xFFFFFFFF) ∧
    (keyed .enc 0xFFFFFFFE 0 0 0 0).blkcnt ≠ 0xFFFFFFFF := by decide

/-- Each clause: the two refusing modes, no key, a wrong N, a full count, and a block let through at both ends. -/
theorem witness_DecBlockCompletes :
    (16 : BitVec 5).toNat ≤ 16 ∧ (keyed .enc 1 0 0 0 0).smode = .enc ∧ (keyed .done 1 0 0 0 0).smode = .done ∧
    (State.reset.smode = .idle ∧ State.reset.keyValid = false) ∧
    ((keyed .dec 1 0 0 0 0).smode = .dec ∧ (keyed .dec 1 0 0 0 0).keyValid = true ∧ (15 : BitVec 5) ≠ 16) ∧
    (keyed .dec 0xFFFFFFFF 0 0 0 0).blkcnt = 0xFFFFFFFF ∧
    ((keyed .idle 0 0 0 0 0).keyValid = true ∧ (keyed .idle 0 0 0 0 0).blkcnt ≠ 0xFFFFFFFF) ∧
    (keyed .dec 0xFFFFFFFE 0 0 0 0).blkcnt ≠ 0xFFFFFFFF := by decide

/-- Each clause: the two refusing modes, no key, N = 16, a full count, and N at both ends let through. -/
theorem witness_EncFinalCompletes :
    (16 : BitVec 5).toNat ≤ 16 ∧ (keyed .dec 1 0 0 0 0).smode = .dec ∧ (keyed .done 1 0 0 0 0).smode = .done ∧
    (State.reset.smode = .idle ∧ State.reset.keyValid = false) ∧
    ((keyed .enc 1 0 0 0 0).smode = .enc ∧ (keyed .enc 1 0 0 0 0).keyValid = true) ∧
    (keyed .enc 0xFFFFFFFF 0 0 0 0).blkcnt = 0xFFFFFFFF ∧
    ((0 : BitVec 5) ≠ 16 ∧ (15 : BitVec 5) ≠ 16 ∧ (keyed .enc 0xFFFFFFFE 0 0 0 0).blkcnt ≠ 0xFFFFFFFF) := by decide

/-- Each clause; both outcomes of the pad check are L2.6's rows p = 16 and p = 17 of a single block. -/
theorem witness_DecFinalCompletes :
    ((keyed .enc 1 0 0 0 0).smode = .enc ∧ (keyed .done 1 0 0 0 0).smode = .done ∧
      (State.reset.smode = .idle ∧ State.reset.keyValid = false) ∧ (keyed .dec 0xFFFFFFFF 0 0 0 0).blkcnt = 0xFFFFFFFF ∧
      (0 : BitVec 5).toNat ≤ 16 ∧ (0 : BitVec 5) ≠ 16) ∧
    ((keyed .idle 0 0xD533DDA1 0x4471CB2A 0xCB3F2FE9 0x966C4230).keyValid = true ∧
      (keyed .idle 0 0xD533DDA1 0x4471CB2A 0xCB3F2FE9 0x966C4230).blkcnt ≠ 0xFFFFFFFF) ∧
    (decBlock testRk (keyed .idle 0 0xD533DDA1 0x4471CB2A 0xCB3F2FE9 0x966C4230).inb)[15] = 16 ∧
    (decBlock testRk (keyed .idle 0 0xD533DDA1 0x4471CB2A 0xCB3F2FE9 0x966C4330).inb)[15] = 17 := by decide

/-- "Hello" and three stale bytes, against "Hello" and zeros (P7). -/
theorem witness_StaleBytesHaveNoEffect :
    (keyed .idle 0 0x6C6C6548 0xDEADBE6F 0 0).inb.toList.take (5 : BitVec 5).toNat =
      (keyed .idle 0 0x6C6C6548 0x0000006F 0 0).inb.toList.take (5 : BitVec 5).toNat ∧
    (keyed .idle 0 0x6C6C6548 0xDEADBE6F 0 0).inb ≠ (keyed .idle 0 0x6C6C6548 0x0000006F 0 0).inb := by decide

theorem witness_UnencodableCountIsIllegal : 16 < (17 : BitVec 5).toNat ∧ 16 < (31 : BitVec 5).toNat := by decide

/-- Two states that agree on INB and RK alone, both of which let each block command through. -/
theorem witness_BlocksAreIndependent :
    ∃ s s' : State, s.inb = s'.inb ∧ s.rk = s'.rk ∧ s ≠ s' ∧
      ∃ t t', exec (.encBlock 16) s = .next t ∧ exec (.encBlock 16) s' = .next t' ∧ t.err = .ok ∧ t'.err = .ok :=
  ⟨keyed .idle 0 1 2 3 4, { keyed .enc 9 1 2 3 4 with err := .length, padlen := 3 }, rfl, rfl, by decide, _, _,
    exec_encBlock_pass rfl, exec_encBlock_pass rfl, rfl, rfl⟩

theorem witness_StreamTableHolds :
    (Instr.encBlock 16).wellFormed = true ∧ smodeAfter (.encBlock 16) (keyed .dec 1 0 0 0 0).smode = none ∧
    smodeAfter (.decFinal 16) (keyed .dec 1 0 0 0 0).smode = some .done ∧ smodeAfter .keyInit .done = some .done := by decide

/-- A command that fails, and a word that is none. -/
theorem witness_FailedCommandChangesOnlyErr :
    (∃ t, exec .keyFinal State.reset = .next t ∧ t.err ≠ .ok) ∧ decode 0x000000FF = .error .unassignedOpcode :=
  ⟨⟨_, exec_keyFinal_error rfl, by decide⟩, by decide⟩

theorem witness_ErrorsComeFromTheirCommands :
    (∃ t, exec (.encBlock 16) State.reset = .next t ∧ t.err = .nokey) ∧
    (∃ t, exec (.encBlock 16) (keyed .done 1 0 0 0 0) = .next t ∧ t.err = .sequence) ∧
    ∃ t, exec (.decFinal 16) (keyed .idle 0 0xD533DDA1 0x4471CB2A 0xCB3F2FE9 0x966C4330) = .next t ∧ t.err = .padding :=
  ⟨⟨_, exec_encBlock_error rfl, rfl⟩, ⟨_, exec_encBlock_error rfl, rfl⟩, _, exec_decFinal_pass rfl, by decide⟩

theorem witness_CommandsLeaveInputAndBus :
    (∃ t, exec .nop State.reset = .next t) ∧ ∃ t, exec (.encBlock 16) (keyed .idle 0 1 2 3 4) = .next t :=
  ⟨⟨_, rfl⟩, _, exec_encBlock_pass rfl⟩

/-- A command of each kind that the clauses name, with the flags not both set before. -/
theorem witness_KeyStateFrame :
    (∃ t, exec (.keyAbsorb 7) (opened 0) = .next t) ∧ (∃ t, exec .keyFinal (opened 0) = .next t ∧ t.err = .ok) ∧
    (∃ t, exec .keyInit State.reset = .next t ∧ t.err = .ok) ∧ (∃ t, exec (.rotl 3) State.reset = .next t) ∧
    ¬ ((opened 0).keyValid = true ∧ (opened 0).keyOpen = true) :=
  ⟨⟨_, exec_keyAbsorb_pass rfl⟩, ⟨_, exec_keyFinal_pass rfl, rfl⟩, ⟨_, exec_keyInit_pass rfl, rfl⟩, ⟨_, rfl⟩, by decide⟩

theorem witness_StreamAndOutputFrame :
    (∃ t, exec .streamInit (keyed .dec 1 0 0 0 0) = .next t) ∧ (∃ t, exec (.keyAbsorb 7) (opened 0) = .next t) ∧
    (∃ t, exec (.rotr 3) State.reset = .next t) ∧ ∃ t, exec (.decBlock 16) (keyed .dec 1 0 0 0 0) = .next t :=
  ⟨⟨_, rfl⟩, ⟨_, exec_keyAbsorb_pass rfl⟩, ⟨_, rfl⟩, _, exec_decBlock_pass rfl⟩

/-- The reserved bits at the edges of the clause. -/
theorem witness_StatusFieldsInPlace : (12 ≤ 12 ∧ 15 ≤ 15) ∧ (17 : Nat) ≤ 17 ∧ (17 : Nat) ≤ 31 := by decide

/-- No command pending; the reserved offsets at the edges of their ranges. -/
theorem witness_IdleReadsGiveTheRegister :
    (keyed .enc 1 5 6 7 8).pend = none ∧ (0x14 : Offset).toNat % 4 = 0 ∧ (0x1C : Offset).toNat % 4 = 0 ∧
    (0x60 : Offset).toNat % 4 = 0 ∧ (0xFC : Offset).toNat % 4 = 0 ∧ 0x60 ≤ (0xFC : Offset).toNat ∧
    (0x1C : Offset).toNat ≤ 0x1C ∧ BitVec.ofNat 8 (0x40 + 4 * (7 : Fin 8)) = (0x5C : Offset) := by decide

theorem witness_BusyReads :
    (∃ r, (pendingInit 2 []).pend = some r) ∧ (0x1C : Offset).toNat % 4 = 0 ∧ (0x1C : Offset).toNat ≤ 0x1C ∧
    (0x60 : Offset).toNat % 4 = 0 := ⟨⟨_, rfl⟩, by decide⟩

theorem witness_InputWriteSetsFourBytes :
    ({ State.reset with host := [wr 0x2C 0xA1B2C3D4] } : State).pend = none ∧
    ({ State.reset with host := [wr 0x2C 0xA1B2C3D4] } : State).host =
      .write (BitVec.ofNat 8 (0x20 + 4 * (3 : Fin 4))) 0b1111 0xA1B2C3D4 :: [] := by decide

/-- The read-only and reserved offsets at the edges of their ranges. -/
theorem witness_ReadOnlyWritesAreIgnored :
    ((0x04 : Offset).toNat % 4 = 0 ∧ 0x04 ≤ (0x04 : Offset).toNat) ∧ ((0x1C : Offset).toNat ≤ 0x1C) ∧
    ((0x30 : Offset).toNat % 4 = 0 ∧ 0x30 ≤ (0x30 : Offset).toNat) ∧ 0x30 ≤ (0xFC : Offset).toNat := by decide

/-- A misaligned read and a byte write, each as the next statement of an idle machine and of a busy one. -/
theorem witness_RefusedTransactionHasNoEffect :
    ((0x22 : Offset).toNat % 4 ≠ 0 ∧ ({ State.reset with host := [.read 0x22] } : State).pend = none ∧
      ({ State.reset with host := [.read 0x22] } : State).host = .read 0x22 :: []) ∧
    ((0b0001 : BitVec 4) ≠ 0b1111 ∧
      ({ State.reset with host := [.write 0x20 0b0001 7] } : State).host = .write 0x20 0b0001 7 :: []) ∧
    ((pendingInit 1 [.read 0x22]).lat ≠ 0 ∧ (pendingInit 1 [.read 0x22]).pend ≠ none ∧
      (pendingInit 1 [.read 0x22]).host = .read 0x22 :: []) ∧
    ((pendingInit 1 [.write 0x20 0b0001 7]).lat ≠ 0 ∧
      (pendingInit 1 [.write 0x20 0b0001 7]).host = .write 0x20 0b0001 7 :: []) := by decide

/-- A command's word, and an illegal one, each as the next statement of an idle machine. -/
theorem witness_StepRunsTheDecodedCommand :
    (∃ t, ({ State.reset with host := [cmd .keyInit, .poll] } : State).pend = none ∧
      ({ State.reset with host := [cmd .keyInit, .poll] } : State).host = .write 0x00 0b1111 0x00000010 :: [.poll] ∧
      decode 0x00000010 = .ok .keyInit ∧
      exec .keyInit { State.reset with host := [.poll], lost := false } = .next t) ∧
    (({ State.reset with host := [wr 0x00 0x000000FF] } : State).pend = none ∧
      ({ State.reset with host := [wr 0x00 0x000000FF] } : State).host = .write 0x00 0b1111 0x000000FF :: [] ∧
      decode 0x000000FF = .error .unassignedOpcode) :=
  ⟨⟨_, rfl, rfl, rfl, exec_keyInit_pass rfl⟩, rfl, rfl, by decide⟩

theorem witness_CompletionInstallsPending : (∃ r, (pendingInit 0 []).pend = some r) ∧ (pendingInit 0 []).lat = 0 :=
  ⟨⟨_, rfl⟩, rfl⟩

/-- LAT run out, and LAT with steps to go. -/
theorem witness_PendingCommandCompletes :
    ((∃ r, (pendingInit 0 []).pend = some r) ∧ (pendingInit 0 []).host = []) ∧
    ((∃ r, (pendingInit 5 []).pend = some r) ∧ (pendingInit 5 []).host = []) := ⟨⟨⟨_, rfl⟩, rfl⟩, ⟨_, rfl⟩, rfl⟩

theorem witness_DoCommandReachesItsResult :
    ∃ t, ({ State.reset with host := doCmd .keyInit ++ rdout } : State).pend = none ∧ Instr.keyInit.wellFormed = true ∧
      ({ State.reset with host := doCmd .keyInit ++ rdout } : State).host = doCmd .keyInit ++ rdout ∧
      exec .keyInit { State.reset with host := .poll :: rdout, lost := false } = .next t :=
  ⟨_, rfl, rfl, rfl, exec_keyInit_pass rfl⟩

theorem witness_BusyWriteIsLost :
    (∃ r, (pendingInit 1 [wr 0x2C 7]).pend = some r) ∧ (pendingInit 1 [wr 0x2C 7]).lat ≠ 0 ∧
    (pendingInit 1 [wr 0x2C 7]).host = .write 0x2C 0b1111 7 :: [] := ⟨⟨_, rfl⟩, by decide, rfl⟩

/-- LOST set by a write while busy, and cleared by a reset. -/
theorem witness_LostFollowsIgnoredWrites :
    (∃ t, step (pendingInit 1 [wr 0x00 0]) = .next t ∧ (pendingInit 1 [wr 0x00 0]).lost = false ∧ t.lost = true) ∧
    ∃ t, step { State.reset with lost := true, host := [.reset] } = .next t ∧ t.lost = false :=
  ⟨⟨_, rfl, rfl, rfl⟩, _, rfl, rfl⟩

/-- A reset with nothing pending, and one in the middle of a command. -/
theorem witness_ResetAbandonsEverything :
    (({ State.reset with host := [.reset] } : State).pend = none ∧
      ({ State.reset with host := [.reset] } : State).host = .reset :: []) ∧
    ((pendingInit 3 [.reset]).lat ≠ 0 ∧ (pendingInit 3 [.reset]).host = .reset :: []) := by decide

/-- The invariant holds of a machine in a stream, with a command pending that ends it. -/
theorem witness_StepKeepsTheInvariant :
    ∃ s t, MachineInv s ∧ s.pend ≠ none ∧ step s = .next t := by
  have inv (m : SMode) (hm : m = .idle → False) (p : Byte) (hp : m ≠ .done → p = 0) :
      RegsInv { Regs.reset with keyValid := true, rk := schedule [], smode := m, blkcnt := 1, padlen := p } :=
    ⟨by simp [Regs.reset], fun _ => rfl, by simp [Regs.reset], fun _ => rfl, by simp, by simp, fun h => (hm h).elim,
      fun _ => by show (1 : Word) ≠ 0; decide, hp⟩
  refine ⟨{ State.reset with
      keyValid := true, rk := schedule [], smode := .enc, blkcnt := 1, lat := 1
      pend := some { Regs.reset with keyValid := true, rk := schedule [], smode := .done, blkcnt := 1, padlen := 16 } },
    _, ⟨inv .enc (by simp) 0 (fun _ => rfl), ?_, ?_, ?_, ?_⟩, by simp, rfl⟩
  · rintro r ⟨⟩; exact inv .done (by simp) 16 (by simp)
  · rintro r ⟨⟩; rfl
  · rintro r ⟨⟩; rfl
  · rintro r ⟨⟩ _; rfl

/-- A machine in a stream whose host is about to read OUT0. -/
theorem witness_OneSchedulePerStream :
    ∃ s t : State, MachineInv s ∧ s.smode.inProgress ∧ (∀ rest, s.host ≠ .reset :: rest) ∧ step s = .next t := by
  refine ⟨{ State.reset with
      keyValid := true, rk := schedule [], smode := .enc, blkcnt := 1, host := [.read 0x30] }, _,
    ⟨⟨by simp [State.reset, Regs.reset], fun _ => rfl, by simp [State.reset, Regs.reset], fun _ => rfl, by simp, by simp,
      by simp, fun _ => by decide, fun _ => rfl⟩, ?_, ?_, ?_, ?_⟩, .inl rfl, by simp, rfl⟩ <;> rintro r ⟨⟩

/-- A host that issues a command, polls it and reads the result, at a machine with nothing pending and at a busy one. -/
theorem witness_PoliteHostLosesNothing :
    (polite State.reset.busy (doCmd (.rotl 3) ++ rdout) = true ∧ State.reset.lost = false) ∧
    (polite true (.poll :: doCmd .nop) = true ∧ polite true [wr 0x20 1] = false ∧ polite false [.read 0x22] = false) ∧
    ∀ r, (pendingInit 2 [.poll]).pend = some r → r.lost = false := ⟨by decide, by decide, by rintro r ⟨⟩; rfl⟩

/-- Refused: no bytes, 17 bytes, and a block whose last byte is 0. -/
theorem witness_DecryptRefusals :
    ([] : List Byte).length = 0 ∧ (List.replicate 17 (0 : Byte)).length % 16 ≠ 0 ∧
    (mapBlocks (decBlock testRk) (ser ⟨0xD533DDA1, 0x4471CB2A, 0xCB3F2FE9, 0x966C3230⟩).toList).getLast? = some 0 :=
  ⟨by decide, by decide, by decide⟩

/-- The key of P9, 17 bytes, at a machine that has just been reset. -/
theorem witness_KeyProcedureLoadsTheKey :
    ∃ s : State, s.pend = none ∧ s.smode = .idle ∧ (List.replicate 17 (1 : Byte)).length ≤ 2 ^ 32 - 1 ∧
      s.host = keyProc (List.replicate 17 1) ++ [] :=
  ⟨{ State.reset with host := keyProc (List.replicate 17 1) ++ [] }, rfl, rfl, by simp, rfl⟩

/-- P2's plaintext, 16 bytes of 'A', and the empty one. -/
theorem witness_EncryptProcedureComputesEncrypt :
    ∀ p ∈ [[], List.replicate 16 (0x41 : Byte)],
      ∃ s : State, s.pend = none ∧ s.keyValid = true ∧ p.length / 16 + 1 ≤ 2 ^ 32 - 1 ∧ s.host = encryptProc p ++ rdout := by
  intro p hp
  refine ⟨{ keyed .done 1 0 0 0 0 with host := encryptProc p ++ rdout }, rfl, rfl, ?_, rfl⟩
  revert p; decide

/-- The empty ciphertext, and P5's 17 bytes. -/
theorem witness_DecryptProcedureComputesDecrypt :
    ∀ c ∈ [[], List.replicate 17 (0xAA : Byte)],
      ∃ s : State, s.pend = none ∧ s.keyValid = true ∧ c.length < 16 * (2 ^ 32 - 1) ∧ s.host = decryptProc c ++ rdout := by
  intro c hc
  refine ⟨{ keyed .done 1 0 0 0 0 with host := decryptProc c ++ rdout }, rfl, rfl, ?_, rfl⟩
  revert c; decide

end Sys2Proof.Tests
end

/-! ### Block functions

The rotator's two directions, the rounds and the block functions undo each other
(spec/40_rotate.md R100, R101; spec/42_round.md R144, R147; spec/43_block_codec.md R161 to R163). -/

namespace Sys2Proof.Machine

/-- The rotator of R100 is the library's rotation. -/
theorem rotl32_eq_rotateLeft (v : Word) (s : Nat) : rotl32 v s = v.rotateLeft s := by
  rw [rotl32, BitVec.rotateLeft_def]
  split
  · next h => simp [h, BitVec.ushiftRight_eq_zero]
  · rfl

/-- The rotator of R101 is the library's rotation. -/
theorem rotr32_eq_rotateRight (v : Word) (s : Nat) : rotr32 v s = v.rotateRight s := by
  rw [rotr32, BitVec.rotateRight_def]
  split
  · next h => simp [h]
  · rfl

/-- Bit `i` of a word rotated left comes from `s` places below it, cyclically (R100). -/
theorem getLsbD_rotl32 (v : Word) (s : Nat) {i : Nat} (hi : i < 32) :
    (rotl32 v s).getLsbD i = v.getLsbD ((i + (32 - s % 32)) % 32) := by
  rw [rotl32_eq_rotateLeft, BitVec.getLsbD_rotateLeft]
  by_cases h : i < s % 32
  · simp only [h, decide_true, cond_true]; congr 1; omega
  · simp only [h, hi, decide_true, decide_false, cond_false, Bool.true_and]; congr 1; omega

/-- Bit `i` of a word rotated right comes from `s` places above it, cyclically (R101). -/
theorem getLsbD_rotr32 (v : Word) (s : Nat) {i : Nat} (hi : i < 32) :
    (rotr32 v s).getLsbD i = v.getLsbD ((i + s) % 32) := by
  rw [rotr32_eq_rotateRight, BitVec.getLsbD_rotateRight]
  by_cases h : i < 32 - s % 32
  · simp only [h, decide_true, cond_true]; congr 1; omega
  · simp only [h, hi, decide_true, decide_false, cond_false, Bool.true_and]; congr 1; omega

@[simp] theorem rotr32_rotl32 (v : Word) (s : Nat) : rotr32 (rotl32 v s) s = v := by
  apply BitVec.eq_of_getLsbD_eq
  intro i hi
  rw [getLsbD_rotr32 _ _ hi, getLsbD_rotl32 _ _ (Nat.mod_lt _ (by decide))]
  congr 1; omega

@[simp] theorem rotl32_rotr32 (v : Word) (s : Nat) : rotl32 (rotr32 v s) s = v := by
  apply BitVec.eq_of_getLsbD_eq
  intro i hi
  rw [getLsbD_rotl32 _ _ hi, getLsbD_rotr32 _ _ (Nat.mod_lt _ (by decide))]
  congr 1; omega

/-- R144: the inverse round undoes a round under the same key. -/
@[simp] theorem invRoundFn_roundFn (st : CipherState) (rk : Word) : invRoundFn (roundFn st rk) rk = st := by
  simp [invRoundFn, roundFn]

/-- The inverse rounds take off the last round first, so that `n` of them undo `n` rounds. -/
theorem decRoundsFrom_encRoundsUpTo (rk : Schedule) (st : CipherState) :
    ∀ n, decRoundsFrom rk n (encRoundsUpTo rk n st) = st
  | 0 => rfl
  | n + 1 => by rw [encRoundsUpTo, decRoundsFrom, invRoundFn_roundFn, decRoundsFrom_encRoundsUpTo rk st n]

@[simp] theorem deser_ser (st : CipherState) : deser (ser st) = st := by
  simp [deser, ser, le32_lanes]

theorem ser_deser (b : Block) : ser (deser b) = b := by
  ext i hi
  interval_cases i <;>
    simp [ser, deser, (lanes_le32 _ _ _ _).1, (lanes_le32 _ _ _ _).2.1, (lanes_le32 _ _ _ _).2.2.1,
      (lanes_le32 _ _ _ _).2.2.2]

/-- R163: DecBlock undoes EncBlock under the same schedule. -/
theorem decBlock_encBlock (rk : Schedule) (b : Block) : decBlock rk (encBlock rk b) = b := by
  rw [decBlock, encBlock, deser_ser, decRounds, encRounds, decRoundsFrom_encRoundsUpTo, ser_deser]

/-! ### The whole stream

Decrypting an encrypted byte sequence gives it back (spec/44_stream.md R183, R186, R187). -/

/-- On whole blocks, a block function is undone by mapping its left inverse. -/
theorem mapBlocks_leftInverse {f g : Block → Block} (h : Function.LeftInverse g f) {l : List Byte}
    (hl : l.length % 16 = 0) : mapBlocks g (mapBlocks f l) = l := by
  have hq : l.length = 16 * (l.length / 16) := by omega
  have hf : mapBlocks f l = ((blocksOf (l.length / 16) l).map f).flatMap fun b => b.toList := by
    rw [mapBlocks, List.flatMap_map]
  have hcut : blocksOf ((mapBlocks f l).length / 16) (mapBlocks f l) = (blocksOf (l.length / 16) l).map f := by
    have hlen : (mapBlocks f l).length / 16 = ((blocksOf (l.length / 16) l).map f).length := by
      rw [mapBlocks_length, List.length_map, blocksOf_length]; omega
    rw [hlen, hf, blocksOf_bytes]
  rw [mapBlocks, hcut, List.flatMap_map]
  simp only [h _]
  exact bytes_blocksOf _ l hq

theorem padLength_mod_bounds (n : Nat) : 1 ≤ padLength (n % 16) ∧ padLength (n % 16) ≤ 16 := by
  simp only [padLength, Config.blockBytes]; omega

/-- The last byte of the padded stream is the pad length (R183). -/
theorem padStream_getLastD (p : List Byte) :
    (padStream p).getLastD 0 = BitVec.ofNat 8 (padLength (p.length % 16)) := by
  have hpos : padLength (p.length % 16) ≠ 0 := by have := padLength_mod_bounds p.length; omega
  simp [padStream, List.getLastD_eq_getLast?, List.getLast?_append, List.getLast?_replicate, hpos]

/-- The pad length survives as a byte. -/
theorem padByte_toNat (n : Nat) : (BitVec.ofNat 8 (padLength (n % 16))).toNat = padLength (n % 16) := by
  have := padLength_mod_bounds n
  rw [BitVec.toNat_ofNat]; omega

theorem length_encryptStream (rk : Schedule) (p : List Byte) :
    (encryptStream rk p).length = 16 * (p.length / 16 + 1) := by
  rw [encryptStream, mapBlocks_length, padStream_length]; omega

/-- The blocks decrypt to the padded stream, before the pad is checked and cut off. -/
theorem mapBlocks_decBlock_encryptStream (rk : Schedule) (p : List Byte) :
    mapBlocks (decBlock rk) (encryptStream rk p) = padStream p :=
  mapBlocks_leftInverse (decBlock_encBlock rk) (by rw [padStream_length]; omega)

/-- The pad check accepts the pad that encryption adds (R183, R186). -/
theorem padValid_padStream (p : List Byte) : padValid ((padStream p).getLastD 0) (padStream p).length = true := by
  have hb := padLength_mod_bounds p.length
  have hne : BitVec.ofNat 8 (padLength (p.length % 16)) ≠ 0 := by
    intro h
    have hz : padLength (p.length % 16) = 0 := by rw [← padByte_toNat, h]; rfl
    omega
  rw [padStream_getLastD, padStream_length, padValid, padByte_toNat, Bool.and_eq_true, bne_iff_ne, decide_eq_true_eq]
  exact ⟨hne, by omega⟩

/-- Cutting as many bytes as the last byte says takes the pad off again. -/
theorem take_padStream (p : List Byte) :
    (padStream p).take ((padStream p).length - ((padStream p).getLastD 0).toNat) = p := by
  rw [padStream_getLastD, padByte_toNat]
  simp [padStream]

/-- Settles O55: the blocks decrypt to the padded stream, whose pad passes the check and is cut off. -/
theorem decryptInvertsEncrypt : Obligations.DecryptInvertsEncrypt := by
  intro rk p
  have hlen : ¬ ((encryptStream rk p).length = 0 ∨ (encryptStream rk p).length % 16 ≠ 0) := by
    rw [length_encryptStream]; omega
  simp only [decryptStream, if_neg hlen, mapBlocks_decBlock_encryptStream, padValid_padStream, if_true, take_padStream]

end Sys2Proof.Machine

/-! ### What a command can do

The one inversion of `exec` from which the frames and the invariant follow (spec/60_exceptions.md R200, R207). -/

namespace Sys2Proof.Machine

/-- A code that a list of checks gives is one of the list's. -/
theorem firstError_mem {e : Err} : ∀ {l : List (Bool × Err)}, firstError l = some e → e ∈ l.map Prod.snd
  | (c, e') :: l, h => by
    rw [firstError_cons] at h
    split at h
    · cases h; exact List.mem_cons_self
    · exact List.mem_cons_of_mem _ (firstError_mem h)

/-- A failed check never reports OK. -/
theorem commandChecks_ne_ok (i : Instr) (s : State) : commandChecks i s ≠ some .ok := by
  intro h
  cases i with
  | nop | streamInit | rotl k | rotr k => cases h
  | keyInit | keyAbsorb n | keyFinal | encBlock n | encFinal n | decBlock n | decFinal n =>
    have listed := firstError_mem h
    simp at listed

/-- The state after `i` from `s`, with the guards under which it is reached: a failed check, or the command's effect.
What a block command or a rotation computes is not said here (`exec_encBlock_pass` and its likes say it). -/
inductive CommandEffect (s : State) : Instr → State → Prop where
  | failed (i : Instr) (e : Err) (error : e ≠ .ok) : CommandEffect s i { s with err := e }
  | nop : CommandEffect s .nop { s with err := .ok }
  | keyInit (allowed : s.smode.refusesKeyInit = false) :
      CommandEffect s .keyInit
        { s with kmsg := [], rk := Vector.replicate 8 0, keyValid := false, keyOpen := true, err := .ok }
  | keyAbsorb (n : BitVec 5) (opened : s.keyOpen = true) (fits : s.kmsg.length + n.toNat ≤ Config.keylenMax) :
      CommandEffect s (.keyAbsorb n) { s with kmsg := s.kmsg ++ inPrefix s.inb n.toNat, err := .ok }
  | keyFinal (opened : s.keyOpen = true) :
      CommandEffect s .keyFinal { s with rk := schedule s.kmsg, keyValid := true, keyOpen := false, err := .ok }
  | streamInit : CommandEffect s .streamInit { s with smode := .idle, blkcnt := 0, padlen := 0, err := .ok }
  | block (n : BitVec 5) (i : Instr) (m : SMode) (out : Vector Word 4)
      (which : i = .encBlock n ∧ m = .enc ∨ i = .decBlock n ∧ m = .dec)
      (unfinished : s.smode ≠ .done) (keyed : s.keyValid = true) (room : s.blkcnt ≠ Config.blkcntMax) :
      CommandEffect s i { s with
        out := out, blkcnt := s.blkcnt + 1, smode := m, err := .ok,
        st := s.releaseDatapath.st, rc := s.releaseDatapath.rc, draws := s.draws + 5 }
  | final (n : BitVec 5) (i : Instr) (out : Vector Word 4) (p : Byte) (e : Err)
      (which : i = .encFinal n ∨ i = .decFinal n)
      (unfinished : s.smode ≠ .done) (keyed : s.keyValid = true) (room : s.blkcnt ≠ Config.blkcntMax) :
      CommandEffect s i { s with
        out := out, blkcnt := s.blkcnt + 1, padlen := p, smode := .done, err := e,
        st := s.releaseDatapath.st, rc := s.releaseDatapath.rc, draws := s.draws + 5 }
  | rotate (k : BitVec 5) (i : Instr) (out : Vector Word 4) (which : i = .rotl k ∨ i = .rotr k) :
      CommandEffect s i { s with out := out, err := .ok }

theorem unfinished_of_enc {m : SMode} (h : m.refusesEnc = false) : m ≠ .done := by rintro rfl; cases h

theorem unfinished_of_dec {m : SMode} (h : m.refusesDec = false) : m ≠ .done := by rintro rfl; cases h

/-- Whatever a command answers is one of its effects. -/
theorem exec_effect {i : Instr} {s t : State} (h : exec i s = .next t) : CommandEffect s i t := by
  cases hc : commandChecks i s with
  | some e =>
    rw [exec_error hc] at h; cases h
    exact .failed i e fun he => commandChecks_ne_ok i s (he ▸ hc)
  | none =>
    cases i with
    | nop => cases h; exact .nop
    | keyInit =>
      rw [exec_keyInit_pass hc] at h; cases h
      exact .keyInit (keyInitChecks_eq_none.mp hc)
    | keyAbsorb n =>
      obtain ⟨-, opened, fits⟩ := keyAbsorbChecks_eq_none.mp hc
      rw [exec_keyAbsorb_pass hc] at h; cases h
      exact .keyAbsorb n opened fits
    | keyFinal =>
      rw [exec_keyFinal_pass hc] at h; cases h
      exact .keyFinal (keyFinalChecks_eq_none.mp hc)
    | streamInit => cases h; exact .streamInit
    | encBlock n =>
      obtain ⟨-, allowed, keyed, -, room⟩ := blockChecks_eq_none.mp hc
      rw [exec_encBlock_pass hc] at h; cases h
      exact .block n _ _ _ (.inl ⟨rfl, rfl⟩) (unfinished_of_enc allowed) keyed room
    | encFinal n =>
      obtain ⟨-, allowed, keyed, -, room⟩ := blockChecks_eq_none.mp hc
      rw [exec_encFinal_pass hc] at h; cases h
      exact .final n _ _ _ _ (.inl rfl) (unfinished_of_enc allowed) keyed room
    | decBlock n =>
      obtain ⟨-, allowed, keyed, -, room⟩ := blockChecks_eq_none.mp hc
      rw [exec_decBlock_pass hc] at h; cases h
      exact .block n _ _ _ (.inr ⟨rfl, rfl⟩) (unfinished_of_dec allowed) keyed room
    | decFinal n =>
      obtain ⟨-, allowed, keyed, -, room⟩ := blockChecks_eq_none.mp hc
      rw [exec_decFinal_pass hc] at h; cases h
      exact .final n _ _ _ _ (.inr rfl) (unfinished_of_dec allowed) keyed room
    | rotl k => cases h; exact .rotate k _ _ (.inl rfl)
    | rotr k => cases h; exact .rotate k _ _ (.inr rfl)

/-- A word written to CMD has a command's effect; an illegal word sets ERR alone, as a failed NOP would (R202, R240). -/
theorem execWord_effect {w : Word} {s t : State} (h : execWord w s = .next t) : ∃ i, CommandEffect s i t := by
  unfold execWord at h
  split at h
  · exact ⟨_, exec_effect h⟩
  · cases h; exact ⟨.nop, .failed _ _ (by simp)⟩

/-! ### Frames

What each command leaves alone (spec/10_state.md R21 to R31). -/

/-- A command leaves INB, LOST and the bus side. -/
theorem CommandEffect.input_bus {i : Instr} {s t : State} (h : CommandEffect s i t) :
    t.inb = s.inb ∧ t.lost = s.lost ∧ t.pend = s.pend ∧ t.lat = s.lat ∧ t.rsp = s.rsp ∧
      t.collected = s.collected ∧ t.host = s.host := by
  cases h <;> exact ⟨rfl, rfl, rfl, rfl, rfl, rfl, rfl⟩

/-- Settles O33: each effect of a command rewrites other fields. -/
theorem commandsLeaveInputAndBus : Obligations.CommandsLeaveInputAndBus :=
  fun _ _ _ h => (exec_effect h).input_bus

/-- Settles O34, by the effects of a command: the key commands write what the clauses say, every other effect leaves
the key state. -/
theorem keyStateFrame : Obligations.KeyStateFrame := by
  intro i s t h
  cases exec_effect h with
  | failed i e error => simp [error]
  | keyInit | keyAbsorb => simp
  | keyFinal opened => simp [opened]
  | nop | streamInit => simp
  | block n i m out which | final n i out p e which | rotate k i out which =>
    rcases which with which | which <;> simp [which]

/-- Settles O35, by the effects of a command: a failed one leaves all of these, and each other one is named by the
clauses it is exempt from. -/
theorem streamAndOutputFrame : Obligations.StreamAndOutputFrame := by
  intro i s t h
  cases exec_effect h with
  | failed | nop | keyInit | keyAbsorb | keyFinal | streamInit => simp
  | block n i m out which | final n i out p e which | rotate k i out which =>
    rcases which with which | which <;> simp [which]

/-! ### The datapath

Stepping ST under RC runs the rounds (spec/10_state.md R29, R30; spec/42_round.md R146, R147). -/

theorem iterate_succ_last (f : State → State) : ∀ (n : Nat) (s : State), iterate f (n + 1) s = f (iterate f n s)
  | 0, _ => rfl
  | n + 1, s => iterate_succ_last f n (f s)

/-- The multiplexer sees RC, three bits wide, and so the round number mod 8 (R141). -/
theorem roundKey_ofNat (rk : Schedule) (n : Nat) : roundKey rk (BitVec.ofNat 3 n).toNat = roundKey rk n := by
  simp only [roundKey, BitVec.toNat_ofNat, Nat.reducePow, Nat.mod_mod]

/-- With RC counting up from 0, `n` steps are the rounds `0, ..., n-1`. -/
theorem iterate_encStep (s : State) (b : Block) (n : Nat) :
    iterate State.encStep n (s.loadDatapath b 0) =
      { s with st := encRoundsUpTo s.rk n (deser b), rc := BitVec.ofNat 3 n } := by
  induction n with
  | zero => rfl
  | succ n ih =>
    rw [iterate_succ_last, ih]
    simp only [State.encStep, encRoundsUpTo, roundKey_ofNat, BitVec.ofNat_add]
    rfl

/-- With RC counting down from `n-1`, `n` steps are the inverse rounds `n-1, ..., 0`. -/
theorem iterate_decStep (s : State) (n : Nat) (st : CipherState) :
    iterate State.decStep n { s with st := st, rc := BitVec.ofNat 3 n - 1 } =
      { s with st := decRoundsFrom s.rk n st, rc := -1 } := by
  induction n generalizing st with
  | zero => rfl
  | succ n ih =>
    have rc : BitVec.ofNat 3 (n + 1) - 1 = BitVec.ofNat 3 n := by
      rw [BitVec.ofNat_add]; exact BitVec.add_sub_cancel _ _
    rw [rc, iterate, State.decStep, ih, roundKey_ofNat, decRoundsFrom]

/-- Settles O17: the two loops at the spec's eight rounds. -/
theorem datapathComputesTheRounds : Obligations.DatapathComputesTheRounds :=
  fun s b => ⟨⟨_, iterate_encStep s b Config.rounds⟩, ⟨_, iterate_decStep s Config.rounds (deser b)⟩⟩

/-! ### STATUS, input words and reset

(spec/10_state.md R21, R24, R36.) -/

/-- Settles O36: the bits of the concatenation that makes STATUS. -/
theorem statusFieldsInPlace : Obligations.StatusFieldsInPlace := by
  refine ⟨fun s => ⟨statusBusy_statusWord s, ?_, ?_, ?_, statusErr_statusWord s, ?_, ?_⟩, by decide, by decide⟩
  · simp only [State.statusWord, BitVec.getLsbD_append]; simp
  · simp only [State.statusWord, BitVec.getLsbD_append]; simp
  · apply BitVec.eq_of_getLsbD_eq
    intro i hi
    simp only [State.statusWord, BitVec.getLsbD_extractLsb', BitVec.getLsbD_append]
    interval_cases i <;> simp
  · simp only [State.statusWord, BitVec.getLsbD_append]; simp
  · intro k hk
    by_cases inWord : k < 32
    · simp only [State.statusWord, BitVec.getLsbD_append]
      interval_cases k <;> simp at hk ⊢
    · exact BitVec.getLsbD_of_ge _ _ (by omega)

/-- Byte `4k+j` of a buffer whose word `k` was written is lane `j` of that word (R21). -/
theorem setInWord_written (inb : Block) (k j : Fin 4) (v : Word) :
    (setInWord inb k v)[4 * k.val + j.val] = byteLane v j := by
  have word : (4 * k.val + j.val) / 4 = k.val := by omega
  have lane : (4 * k.val + j.val) % 4 = j.val := by omega
  simp [setInWord, word, lane]

/-- The bytes of the other words stay (R21). -/
theorem setInWord_other (inb : Block) (k : Fin 4) (v : Word) {b : Fin 16} (h : b.val / 4 ≠ k.val) :
    (setInWord inb k v)[b] = inb[b] := by
  simp [setInWord, h]

/-- A written input word reads back (R21). -/
theorem inWord_setInWord (inb : Block) (k : Fin 4) (v : Word) : inWord (setInWord inb k v) k = v := by
  rw [inWord]
  have lane := setInWord_written inb k (v := v)
  rw [show (setInWord inb k v)[4 * k.val] = _ from lane 0, show (setInWord inb k v)[4 * k.val + 1] = _ from lane 1,
    show (setInWord inb k v)[4 * k.val + 2] = _ from lane 2, show (setInWord inb k v)[4 * k.val + 3] = _ from lane 3]
  exact le32_lanes v

/-- The host's write to an input word of an idle machine, as one step. -/
theorem step_writeIn {s : State} {k : Fin 4} {v : Word} {rest : List HostStep} (hp : s.pend = none)
    (hh : s.host = .write (BitVec.ofNat 8 (0x20 + 4 * k)) 0b1111 v :: rest) :
    step s = .next { s with inb := setInWord s.inb k v, host := rest, rsp := some ⟨none, false⟩ } := by
  rw [step_idle hp hh, hostStep, memWrite_at (regAt_inWord k)]
  simp only [writeReg, busy_of_none (s := { s with host := rest }) hp]
  rfl

/-- Settles O40, with the buffer that `setInWord` gives. -/
theorem inputWriteSetsFourBytes : Obligations.InputWriteSetsFourBytes :=
  fun s k v _ hp hh => ⟨setInWord s.inb k v, step_writeIn hp hh, fun j => setInWord_written s.inb k j v,
    fun _ hb => setInWord_other s.inb k v hb, inWord_setInWord s.inb k v⟩

/-- Settles O50, field by field of the reset state. -/
theorem resetValues : Obligations.ResetValues := by
  unfold Obligations.ResetValues; decide

/-! ### The machine invariant

The reset state meets it and every step keeps it (spec/10_state.md R23 to R37; spec/41_key_schedule.md R114, R115). -/

theorem regsInv_reset : RegsInv Regs.reset where
  keyStates := by simp [Regs.reset]
  streamKeyed := by simp [Regs.reset, SMode.inProgress]
  keyBounded := Nat.zero_le _
  keyLoaded := by simp [Regs.reset]
  keyCleared _ := rfl
  keyNone _ _ := rfl
  idleCount _ := rfl
  countPositive := by simp [Regs.reset]
  padOnlyDone _ := rfl

/-- With no command pending, the invariant is that of the registers. -/
theorem machineInv_of_idle {s : State} (now : RegsInv s.toRegs) (idle : s.pend = none) : MachineInv s where
  now := now
  later := by simp [idle]
  input := by simp [idle]
  lostClear := by simp [idle]
  oneSchedule := by simp [idle]

/-- The invariant speaks of the registers and of PEND alone. -/
theorem MachineInv.congr {s t : State} (inv : MachineInv s) (regs : t.toRegs = s.toRegs) (pend : t.pend = s.pend) :
    MachineInv t where
  now := by rw [regs]; exact inv.now
  later := by rw [pend]; exact inv.later
  input := by rw [regs, pend]; exact inv.input
  lostClear := by rw [pend]; exact inv.lostClear
  oneSchedule := by rw [regs, pend]; exact inv.oneSchedule

/-- Settles O51: no command is pending, and the reset registers are sound. -/
theorem resetMeetsTheInvariant : Obligations.ResetMeetsTheInvariant := machineInv_of_idle regsInv_reset rfl

/-- The registers' invariant says nothing of INB, OUT, ERR, LOST, ST and RC. -/
theorem RegsInv.update {r : Regs} (h : RegsInv r) (inb : Block) (out : Vector Word 4) (err : Err) (lost : Bool)
    (st : CipherState) (rc : BitVec 3) :
    RegsInv { r with inb := inb, out := out, err := err, lost := lost, st := st, rc := rc } :=
  ⟨h.keyStates, h.streamKeyed, h.keyBounded, h.keyLoaded, h.keyCleared, h.keyNone, h.idleCount, h.countPositive,
    h.padOnlyDone⟩

/-- A count below its maximum does not wrap when a block is counted (R25). -/
theorem blkcnt_succ_ne_zero {c : Word} (room : c ≠ Config.blkcntMax) : c + 1 ≠ 0 := by
  intro h
  exact room (by rw [Config.blkcntMax]; bv_omega)

/-- Counting a block of a keyed stream, PADLEN staying 0 unless the stream has ended, keeps the invariant. -/
theorem RegsInv.countBlock {r : Regs} (h : RegsInv r) (m : SMode) (p : Byte) (keyed : r.keyValid = true)
    (room : r.blkcnt ≠ Config.blkcntMax) (started : m ≠ .idle) (pad : m ≠ .done → p = 0) :
    RegsInv { r with blkcnt := r.blkcnt + 1, smode := m, padlen := p } where
  keyStates := h.keyStates
  streamKeyed _ := keyed
  keyBounded := h.keyBounded
  keyLoaded := h.keyLoaded
  keyCleared := h.keyCleared
  keyNone := h.keyNone
  idleCount hm := absurd hm started
  countPositive _ := blkcnt_succ_ne_zero room
  padOnlyDone := pad

/-- KEY_INIT is refused inside a stream (R112). -/
theorem not_inProgress_of_keyInit {m : SMode} (h : m.refusesKeyInit = false) : ¬ m.inProgress := by
  rintro (rfl | rfl) <;> cases h

theorem RegsInv.keyInit {r : Regs} (h : RegsInv r) (allowed : r.smode.refusesKeyInit = false) :
    RegsInv { r with kmsg := [], rk := Vector.replicate 8 0, keyValid := false, keyOpen := true } where
  keyStates := by simp
  streamKeyed hm := absurd hm (not_inProgress_of_keyInit allowed)
  keyBounded := Nat.zero_le _
  keyLoaded := by simp
  keyCleared _ := rfl
  keyNone _ _ := rfl
  idleCount := h.idleCount
  countPositive := h.countPositive
  padOnlyDone := h.padOnlyDone

/-- Absorbing happens in key state OPEN alone, where RK is not yet a schedule. -/
theorem RegsInv.keyAbsorb {r : Regs} (h : RegsInv r) (kmsg : List Byte) (opened : r.keyOpen = true)
    (fits : kmsg.length ≤ Config.keylenMax) : RegsInv { r with kmsg := kmsg } where
  keyStates := h.keyStates
  streamKeyed := h.streamKeyed
  keyBounded := fits
  keyLoaded valid := absurd ⟨valid, opened⟩ h.keyStates
  keyCleared := h.keyCleared
  keyNone _ closed := absurd (opened.symm.trans closed) (by simp)
  idleCount := h.idleCount
  countPositive := h.countPositive
  padOnlyDone := h.padOnlyDone

theorem RegsInv.keyFinal {r : Regs} (h : RegsInv r) :
    RegsInv { r with rk := schedule r.kmsg, keyValid := true, keyOpen := false } where
  keyStates := by simp
  streamKeyed _ := rfl
  keyBounded := h.keyBounded
  keyLoaded _ := rfl
  keyCleared := by simp
  keyNone := by simp
  idleCount := h.idleCount
  countPositive := h.countPositive
  padOnlyDone := h.padOnlyDone

theorem RegsInv.streamInit {r : Regs} (h : RegsInv r) :
    RegsInv { r with smode := .idle, blkcnt := 0, padlen := 0 } where
  keyStates := h.keyStates
  streamKeyed := by simp [SMode.inProgress]
  keyBounded := h.keyBounded
  keyLoaded := h.keyLoaded
  keyCleared := h.keyCleared
  keyNone := h.keyNone
  idleCount _ := rfl
  countPositive hm := absurd rfl hm
  padOnlyDone _ := rfl

/-- Every command keeps the registers' invariant. -/
theorem CommandEffect.regsInv {i : Instr} {s t : State} (h : CommandEffect s i t) (inv : RegsInv s.toRegs) :
    RegsInv t.toRegs := by
  cases h with
  | failed | nop | rotate => exact inv.update ..
  | keyInit allowed => exact (inv.keyInit allowed).update ..
  | keyAbsorb n opened fits =>
    have taken : (s.kmsg ++ inPrefix s.inb n.toNat).length ≤ s.kmsg.length + n.toNat := by simp [inPrefix]
    exact (inv.keyAbsorb _ opened (taken.trans fits)).update ..
  | keyFinal => exact inv.keyFinal.update ..
  | streamInit => exact inv.streamInit.update ..
  | block n i m out which unfinished keyed room =>
    have started : m ≠ .idle := by rcases which with ⟨-, rfl⟩ | ⟨-, rfl⟩ <;> simp
    exact (inv.countBlock m s.padlen keyed room started fun _ => inv.padOnlyDone unfinished).update ..
  | final n i out p e which unfinished keyed room =>
    exact (inv.countBlock .done p keyed room (by simp) (by simp)).update ..

/-- Inside a stream no command changes the schedule: KEY_INIT is refused there, and KEY_FINAL needs key state
OPEN, which a keyed stream excludes (R64). -/
theorem CommandEffect.rk_in_stream {i : Instr} {s t : State} (h : CommandEffect s i t) (inv : RegsInv s.toRegs)
    (stream : s.smode.inProgress) : t.rk = s.rk := by
  cases h with
  | keyInit allowed => exact absurd stream (not_inProgress_of_keyInit allowed)
  | keyFinal opened => exact absurd ⟨inv.streamKeyed stream, opened⟩ inv.keyStates
  | _ => rfl

/-- A host statement but a reset keeps the invariant: only an acceptance makes a command pending, and its registers are
an effect of the command on the registers with LOST = 0 (R240). -/
theorem HostEffect.machineInv {s t : State} (h : HostEffect s t) (inv : MachineInv s) : MachineInv t := by
  cases h with
  | quiet regs pend => exact inv.congr regs pend
  | lost busy regs pend =>
    have marked : MachineInv { s with lost := true } :=
      ⟨inv.now.update .., inv.later, inv.input, inv.lostClear, inv.oneSchedule⟩
    exact marked.congr regs pend
  | input k v idle regs pend => exact machineInv_of_idle (regs ▸ inv.now.update ..) pend
  | accepted w r idle ran regs pend =>
    have start : RegsInv { s.toRegs with lost := false } := inv.now.update ..
    obtain ⟨i, eff⟩ := execWord_effect ran
    obtain ⟨inb, lost, -⟩ := eff.input_bus
    refine ⟨regs ▸ start, ?_, ?_, ?_, ?_⟩ <;> rw [pend] <;> rintro _ ⟨⟩
    · exact eff.regsInv start
    · rw [regs]; exact inb
    · exact lost
    · rw [regs]; exact eff.rk_in_stream start

/-- Completion installs registers that were sound while they waited. -/
theorem machineInv_complete {s : State} {r : Regs} (inv : MachineInv s) (hp : s.pend = some r) :
    MachineInv (complete r s) :=
  machineInv_of_idle ((inv.later r hp).update ..) rfl

/-- Settles O52: a step completes the pending command, or leaves the machine alone, or runs one host statement; LAT and
the rest of the host's program do not enter the invariant. -/
theorem stepKeepsTheInvariant : Obligations.StepKeepsTheInvariant := by
  intro s t inv h
  rcases advance_cases h with ⟨r, hp, -, rfl⟩ | ⟨u, hu, ht⟩
  · exact machineInv_complete inv hp
  have invU : MachineInv u := by
    rcases hu with ⟨-, rfl⟩ | ⟨r, -, -, rfl⟩
    · exact inv
    · exact inv.congr rfl rfl
  rcases ht with ⟨-, rfl⟩ | ⟨st, rest, -, ht⟩
  · exact invU
  have invRest : MachineInv { u with host := rest } := invU.congr rfl rfl
  rcases hostStep_effect ht with ⟨-, rfl⟩ | eff
  · exact machineInv_of_idle regsInv_reset rfl
  · exact eff.machineInv invRest

end Sys2Proof.Machine

/-! ### Host transactions

What each transaction of the bus does to the machine, and the schedule inside a stream
(spec/20_memory.md R52 to R58, R64). -/

namespace Sys2Proof.Machine

/-- Every aligned offset holds a register, if only a reserved one (R52, R56). -/
theorem regAt_aligned {off : Offset} (h : off.toNat % 4 = 0) : ∃ r, regAt off = some r := by
  rw [regAt, if_neg (not_not_intro h)]
  split <;> exact ⟨_, rfl⟩

theorem offset_of_regAt_cmd {off : Offset} (h : regAt off = some .cmd) : off.toNat / 4 = 0 := by
  unfold regAt at h
  split at h
  · cases h
  · split at h <;> cases h
    assumption

theorem offset_of_regAt_inWord {off : Offset} {k : Fin 4} (h : regAt off = some (.inWord k)) :
    off.toNat / 4 = 8 + k.val := by
  unfold regAt at h
  split at h
  · cases h
  · split at h <;> cases h <;> assumption

/-- The reserved offsets of the register map: every other row of it stands outside these ranges (R52). -/
theorem regAt_reserved {off : Offset} (aligned : off.toNat % 4 = 0)
    (range : (0x14 ≤ off.toNat ∧ off.toNat ≤ 0x1C) ∨ 0x60 ≤ off.toNat) : regAt off = some .reserved := by
  rw [regAt, if_neg (not_not_intro aligned)]
  split
  case h_22 => rfl
  all_goals omega

/-- A read with no command pending gives the register, and changes only the response (R58). -/
theorem memRead_idle {s : State} {off : Offset} {r : RegName} (hp : s.pend = none) (hr : regAt off = some r) :
    memRead off s = (s.regValue r, answered (some (s.regValue r)) s) := by
  rw [memRead_at hr, readReg_idle (busy_of_none hp)]

/-- A register read moves at most the index of free values (R57). -/
theorem readReg_frame (r : RegName) (s : State) : (readReg r s).2 = { s with draws := (readReg r s).2.draws } := by
  rw [readReg]; split <;> rfl

/-- A read, refused or not, moves at most the response and the index of free values (R57). -/
theorem memRead_frame (off : Offset) (s : State) :
    (memRead off s).2 = { s with rsp := (memRead off s).2.rsp, draws := (memRead off s).2.draws } := by
  cases h : regAt off with
  | none => rw [memRead, h]; rfl
  | some r => rw [memRead_at h, readReg_frame]; rfl

/-- A misaligned read is refused and returns 0 (R55). -/
theorem memRead_refused {off : Offset} (h : off.toNat % 4 ≠ 0) (s : State) :
    memRead off s = (0, refusedBus (some 0) s) := by
  rw [memRead, regAt_misaligned h]

/-- A misaligned or partial write is refused (R55). -/
theorem memWrite_refused {off : Offset} {strb : BitVec 4} (h : off.toNat % 4 ≠ 0 ∨ strb ≠ 0b1111) (v : Word)
    (s : State) : memWrite off strb v s = .next (refusedBus none s) := by
  rw [memWrite]
  rcases h with misaligned | bytes
  · rw [regAt_misaligned misaligned]
  · split
    · rfl
    · exact if_neg bytes

/-- Unless a pending command completes in it, a step is the host's next statement, run on some state (R20, R240). -/
theorem step_hostTurn {s : State} {h : HostStep} {rest : List HostStep} (turn : s.pend = none ∨ s.lat ≠ 0)
    (hh : s.host = h :: rest) : ∃ u, step s = hostStep h u := by
  cases hp : s.pend with
  | none => exact ⟨_, step_idle hp hh⟩
  | some r => exact ⟨_, step_busy hp (turn.resolve_left (by simp [hp])) hh⟩

/-- A host statement but a reset leaves the schedule alone: commands change it at their completion (R241). -/
theorem HostEffect.rk {s t : State} (h : HostEffect s t) : t.rk = s.rk := by
  cases h with
  | quiet regs | lost _ regs | input _ _ _ regs | accepted _ _ _ _ regs => rw [regs]

/-- Settles O53: a completion installs the schedule that the invariant ties to the running stream's, and a host
statement but a reset leaves RK. -/
theorem oneSchedulePerStream : Obligations.OneSchedulePerStream := by
  intro s t inv stream noReset h
  rcases advance_cases h with ⟨r, hp, -, rfl⟩ | ⟨u, hu, ht⟩
  · exact inv.oneSchedule r hp stream
  obtain ⟨rk, host⟩ : u.rk = s.rk ∧ u.host = s.host := by
    rcases hu with ⟨-, rfl⟩ | ⟨r, -, -, rfl⟩ <;> exact ⟨rfl, rfl⟩
  rcases ht with ⟨-, rfl⟩ | ⟨st, rest, hh, ht⟩
  · exact rk
  rcases hostStep_effect ht with ⟨rfl, -⟩ | eff
  · exact absurd (host.symm.trans hh) (noReset rest)
  · exact eff.rk.trans rk

/-- Settles O37: the offset names the register, whose value is the read's. -/
theorem idleReadsGiveTheRegister : Obligations.IdleReadsGiveTheRegister := by
  rintro s hp off v (⟨rfl, rfl⟩ | ⟨rfl, rfl⟩ | ⟨rfl, rfl⟩ | ⟨rfl, rfl⟩ | ⟨k, rfl, rfl⟩ | ⟨k, rfl, rfl⟩ | ⟨k, rfl, rfl⟩ |
    ⟨aligned, rfl, rfl | range⟩)
  · exact memRead_idle hp regAt_status
  · exact memRead_idle (r := .blkcnt) hp rfl
  · exact memRead_idle (r := .padlen) hp rfl
  · exact memRead_idle (r := .keylen) hp rfl
  · exact memRead_idle hp (regAt_inWord k)
  · exact memRead_idle hp (regAt_outWord k)
  · exact memRead_idle hp (regAt_roundKey k)
  · exact memRead_idle hp regAt_cmd
  · exact memRead_idle hp (regAt_reserved aligned range)

/-- Settles O39: a read moves at most the response and the index of free values. -/
theorem readsHaveNoSideEffect : Obligations.ReadsHaveNoSideEffect := by
  intro off s
  rw [memRead_frame]
  exact ⟨rfl, rfl, rfl, rfl, rfl⟩

/-- Settles O41: outside CMD and the input words, a write is taken and ignored. -/
theorem readOnlyWritesAreIgnored : Obligations.ReadOnlyWritesAreIgnored := by
  intro s off v aligned range
  obtain ⟨r, hr⟩ := regAt_aligned aligned
  have notCmd : r ≠ .cmd := by
    rintro rfl
    have := offset_of_regAt_cmd hr
    omega
  have notInput (k : Fin 4) : r ≠ .inWord k := by
    rintro rfl
    have := offset_of_regAt_inWord hr
    omega
  rw [memWrite_at hr, writeReg_ignored notCmd notInput]
  rfl

/-- Settles O42: the bus answers with `rsp_err = 1` alone, which the host's turn makes a fault. -/
theorem refusedTransactionHasNoEffect : Obligations.RefusedTransactionHasNoEffect := by
  intro s off strb v rest
  refine ⟨fun misaligned => memRead_refused misaligned s, fun refused => memWrite_refused refused v s,
    fun turn => ⟨fun misaligned hh => ?_, fun refused hh => ?_⟩⟩
  · obtain ⟨u, hu⟩ := step_hostTurn turn hh
    rw [hu, hostStep, hostRead, memRead_refused misaligned]
    rfl
  · obtain ⟨u, hu⟩ := step_hostTurn turn hh
    rw [hu, hostStep, memWrite_refused refused, andThen_of_next, faultIfRefused_refusedBus]

end Sys2Proof.Machine

/-! ### Command words

Decoding and encoding undo each other, and the decoder is the opcode map (spec/30_encoding.md R80 to R87). -/

namespace Sys2Proof

/-- A word decodes when its reserved bits are 0, its N is legal, and the case of its opcode gives the command (R87). -/
theorem decode_eq_ok_iff {w : Word} {i : Instr} :
    decode w = .ok i ↔ fieldRes0 w = 0 ∧ fieldRes1 w = 0 ∧ (fieldN w).toNat ≤ 16 ∧
      decodeOpcode (fieldOpc w) (fieldN w) (fieldS w) = .ok i := by
  rw [decode]
  split
  · next set => exact iff_of_false (by simp) fun ⟨res0, res1, _⟩ => set.elim (· res0) (· res1)
  · next clear =>
    obtain ⟨res0, res1⟩ : fieldRes0 w = 0 ∧ fieldRes1 w = 0 := by simpa using clear
    split
    · next large => exact iff_of_false (by simp) fun ⟨_, _, small, _⟩ => absurd large (Nat.not_lt.mpr small)
    · next small => simp [res0, res1, Nat.not_lt.mp small]

/-- On the word of a legal N, only the case distinction on the opcode is left to the decoder. -/
theorem decode_commandWord (o : BitVec 8) {n : BitVec 5} (s : BitVec 5) (hn : n.toNat ≤ 16) :
    decode (commandWord o n s) = decodeOpcode o n s := by
  obtain ⟨opc, count, amount, res0, res1⟩ := fields_commandWord o n s
  rw [decode, opc, count, amount, res0, res1, if_neg (by simp), if_neg (by omega)]

theorem decode_encode {i : Instr} (h : i.wellFormed = true) : decode (encode i) = .ok i := by
  cases i with
  | nop | keyInit | keyFinal | streamInit | rotl k | rotr k => exact decode_commandWord _ _ (by decide)
  | keyAbsorb n | encBlock n | encFinal n | decBlock n | decFinal n =>
    exact decode_commandWord _ _ (of_decide_eq_true h)

theorem encode_of_decode {w : Word} {i : Instr} (h : decode w = .ok i) : encode i = w ∧ i.wellFormed = true := by
  obtain ⟨res0, res1, count, opcode⟩ := decode_eq_ok_iff.mp h
  obtain ⟨word, legal⟩ := decodeOpcode_ok opcode
  exact ⟨word.trans (commandWord_fields res0 res1), legal count⟩

/-- Settles O2: the word's fields are those it was built from, and the opcode's case gives the command back. -/
theorem decodeOfEncode : Obligations.DecodeOfEncode := fun _ => decode_encode

/-- Settles O3: a word that decodes has reserved bits 0, so it is the word of its fields. -/
theorem encodeOfDecode : Obligations.EncodeOfDecode := fun _ _ => encode_of_decode

/-- R84, for every command: its word spells the row of its mnemonic. -/
theorem encode_spells_row (i : Instr) : Laws.RowEncoding.Statement i := by
  cases i with
  | nop => exact Laws.RowEncoding.nop
  | keyInit => exact Laws.RowEncoding.keyInit
  | keyAbsorb n => exact Laws.RowEncoding.keyAbsorb n
  | keyFinal => exact Laws.RowEncoding.keyFinal
  | streamInit => exact Laws.RowEncoding.streamInit
  | encBlock n => exact Laws.RowEncoding.encBlock n
  | encFinal n => exact Laws.RowEncoding.encFinal n
  | decBlock n => exact Laws.RowEncoding.decBlock n
  | decFinal n => exact Laws.RowEncoding.decFinal n
  | rotl s => exact Laws.RowEncoding.rotl s
  | rotr s => exact Laws.RowEncoding.rotr s

theorem spells_of_decode {w : Word} {i : Instr} (h : decode w = .ok i) :
    ∃ r ∈ opcodeMap, r.mnemonic = i.mnemonic ∧ r.spells w = true := by
  obtain ⟨rfl, legal⟩ := encode_of_decode h
  exact encode_spells_row i legal

theorem row_of_mnemonic : ∀ r ∈ opcodeMap, ∀ r' ∈ opcodeMap, r.mnemonic = r'.mnemonic → r = r' := by decide

/-- A row's mask covers the opcode, the reserved bits and the fields that the row does not use; its pattern is 0 but
for the opcode. -/
theorem row_fields : ∀ r ∈ opcodeMap,
    (fieldOpc r.mask = BitVec.allOnes 8 ∧ fieldRes0 r.mask = BitVec.allOnes 3 ∧ fieldRes1 r.mask = BitVec.allOnes 11 ∧
      (r.usesN = false → fieldN r.mask = BitVec.allOnes 5) ∧ (r.usesS = false → fieldS r.mask = BitVec.allOnes 5)) ∧
    fieldRes0 r.pattern = 0 ∧ fieldRes1 r.pattern = 0 ∧ fieldN r.pattern = 0 ∧ fieldS r.pattern = 0 := by decide

/-- What the fields of a word that spells a row are (R84). -/
theorem fields_of_spells {r : OpcodeRow} {w : Word} (hr : r ∈ opcodeMap) (h : r.spells w = true) :
    fieldOpc w = fieldOpc r.pattern ∧ fieldRes0 w = 0 ∧ fieldRes1 w = 0 ∧ (fieldN w).toNat ≤ 16 ∧
      (r.usesN = false → fieldN w = 0) ∧ (r.usesS = false → fieldS w = 0) := by
  obtain ⟨⟨mopc, mres0, mres1, mn, ms⟩, pres0, pres1, pn, ps⟩ := row_fields r hr
  rw [OpcodeRow.spells, Bool.and_eq_true, beq_iff_eq] at h
  obtain ⟨masked, count⟩ := h
  have field {k : Nat} (j : Nat) (hm : r.mask.extractLsb' j k = BitVec.allOnes k) :
      w.extractLsb' j k = r.pattern.extractLsb' j k := by
    rw [← masked, BitVec.extractLsb'_and, hm, BitVec.and_allOnes]
  have unused (hu : r.usesN = false) : fieldN w = 0 := (field 8 (mn hu)).trans pn
  refine ⟨field 0 mopc, (field 13 mres0).trans pres0, (field 21 mres1).trans pres1, ?_, unused,
    fun hu => (field 16 (ms hu)).trans ps⟩
  cases hu : r.usesN with
  | false => simp [unused hu]
  | true => simpa [hu, countOk] using count

/-- The opcode of a row, with the fields it does not use 0, decodes to the row's command. -/
theorem decodeOpcode_row {r : OpcodeRow} (hr : r ∈ opcodeMap) {n s : BitVec 5} (hn : r.usesN = false → n = 0)
    (hs : r.usesS = false → s = 0) :
    ∃ i, decodeOpcode (fieldOpc r.pattern) n s = .ok i ∧ i.mnemonic = r.mnemonic := by
  simp only [opcodeMap, List.mem_cons, List.not_mem_nil, or_false] at hr
  rcases hr with rfl | rfl | rfl | rfl | rfl | rfl | rfl | rfl | rfl | rfl | rfl
  · rw [hn rfl, hs rfl]; exact ⟨.nop, rfl, rfl⟩
  · rw [hn rfl, hs rfl]; exact ⟨.keyInit, rfl, rfl⟩
  · rw [hs rfl]; exact ⟨.keyAbsorb n, rfl, rfl⟩
  · rw [hn rfl, hs rfl]; exact ⟨.keyFinal, rfl, rfl⟩
  · rw [hn rfl, hs rfl]; exact ⟨.streamInit, rfl, rfl⟩
  · rw [hs rfl]; exact ⟨.encBlock n, rfl, rfl⟩
  · rw [hs rfl]; exact ⟨.encFinal n, rfl, rfl⟩
  · rw [hs rfl]; exact ⟨.decBlock n, rfl, rfl⟩
  · rw [hs rfl]; exact ⟨.decFinal n, rfl, rfl⟩
  · rw [hn rfl]; exact ⟨.rotl s, rfl, rfl⟩
  · rw [hn rfl]; exact ⟨.rotr s, rfl, rfl⟩

theorem decode_of_spells {r : OpcodeRow} {w : Word} (hr : r ∈ opcodeMap) (h : r.spells w = true) :
    ∃ i, decode w = .ok i ∧ i.mnemonic = r.mnemonic := by
  obtain ⟨opc, res0, res1, count, unusedN, unusedS⟩ := fields_of_spells hr h
  obtain ⟨i, opcode, name⟩ := decodeOpcode_row hr unusedN unusedS
  exact ⟨i, decode_eq_ok_iff.mpr ⟨res0, res1, count, opc ▸ opcode⟩, name⟩

theorem spells_iff_decode {r : OpcodeRow} (hr : r ∈ opcodeMap) (w : Word) :
    r.spells w = true ↔ ∃ i, decode w = .ok i ∧ i.mnemonic = r.mnemonic := by
  refine ⟨decode_of_spells hr, ?_⟩
  rintro ⟨i, hi, name⟩
  obtain ⟨r', hr', name', spelt⟩ := spells_of_decode hi
  rwa [row_of_mnemonic r hr r' hr' (name.symm.trans name'.symm)]

/-- The rows are disjoint (R84), because the decoder is a function. -/
theorem row_of_spells {r r' : OpcodeRow} {w : Word} (hr : r ∈ opcodeMap) (hr' : r' ∈ opcodeMap)
    (h : r.spells w = true) (h' : r'.spells w = true) : r = r' := by
  obtain ⟨i, hi, name⟩ := decode_of_spells hr h
  obtain ⟨i', hi', name'⟩ := decode_of_spells hr' h'
  cases hi.symm.trans hi'
  exact row_of_mnemonic r hr r' hr' (name.symm.trans name')

/-- The word of a command as R84 prints it: each field shifted to its place. -/
theorem commandWord_eq_or (o : BitVec 8) (n s : BitVec 5) :
    commandWord o n s = o.setWidth 32 ||| n.setWidth 32 <<< 8 ||| s.setWidth 32 <<< 16 := by
  apply BitVec.eq_of_getLsbD_eq
  intro i hi
  simp only [commandWord, BitVec.getLsbD_append, BitVec.getLsbD_or, BitVec.getLsbD_shiftLeft, BitVec.getLsbD_setWidth]
  interval_cases i <;> simp

theorem commandWord_count (o : BitVec 8) (n : BitVec 5) :
    commandWord o n 0 = o.setWidth 32 ||| n.setWidth 32 <<< 8 := by
  rw [commandWord_eq_or]; exact BitVec.or_zero

theorem commandWord_amount (o : BitVec 8) (s : BitVec 5) :
    commandWord o 0 s = o.setWidth 32 ||| s.setWidth 32 <<< 16 := by
  rw [commandWord_eq_or]; simp

/-- Settles O4: a word that decodes is the word of its command, which spells the row of its mnemonic, and the fields of
a word that spells a row are what the decoder asks for. -/
theorem opcodeMapIsTheDecoder : Obligations.OpcodeMapIsTheDecoder :=
  ⟨fun w => ⟨fun _ hr => spells_iff_decode hr w, fun _ hr _ hr' => row_of_spells hr hr'⟩, by decide,
    fun k => ⟨commandWord_count 0x11 k, commandWord_count 0x31 k, commandWord_amount 0x50 k, commandWord_amount 0x51 k⟩⟩

/-- Settles O1, by running the decoder on the eleven words. -/
theorem printedWordsDecode : Obligations.PrintedWordsDecode := by
  unfold Obligations.PrintedWordsDecode; decide

end Sys2Proof

/-! ### Acceptance

What an illegal word, a command without an encoding, and `do M` come to
(spec/30_encoding.md R81, R85, R89; spec/70_reset_and_hazards.md R240). -/

namespace Sys2Proof.Machine

theorem execWord_of_ok {w : Word} {i : Instr} (h : decode w = .ok i) (s : State) : execWord w s = exec i s := by
  rw [execWord, h]

/-- An illegal word only reports ILLEGAL (R202). -/
theorem execWord_of_error {w : Word} {e : Illegal} (h : decode w = .error e) (s : State) :
    execWord w s = .next { s with err := .illegal } := by
  rw [execWord, h, raiseError_eq]

/-- Acceptance of a word whose command answers `t`: its registers wait in PEND, and LAT is drawn (R240). -/
theorem accept_of_execWord {w : Word} {s t : State} (h : execWord w { s with lost := false } = .next t) :
    accept w s = .next { s with
      lost := false, pend := some t.toRegs, lat := Config.lat t.draws, draws := t.draws + 1 } := by
  rw [accept, h, andThen_of_next]

/-- A word that spells no row does not decode (R85). -/
theorem decode_error_of_no_row {w : Word} (h : ∀ r ∈ opcodeMap, r.spells w = false) : ∃ e, decode w = .error e := by
  cases hd : decode w with
  | error e => exact ⟨e, rfl⟩
  | ok i =>
    obtain ⟨r, hr, -, spelt⟩ := spells_of_decode hd
    exact absurd spelt (by simp [h r hr])

/-- Settles O5: such a word is illegal, and what waits in PEND is the accepting registers with ERR = ILLEGAL. -/
theorem illegalWordOnlySetsErr : Obligations.IllegalWordOnlySetsErr := by
  intro w noRow
  obtain ⟨e, he⟩ := decode_error_of_no_row noRow
  exact ⟨⟨e, he⟩, fun s => ⟨execWord_of_error he s, _, _, accept_of_execWord (execWord_of_error he _)⟩⟩

/-- The step in which the host of an idle machine writes a word to CMD (R240). -/
theorem step_writeCmd {s t : State} {w : Word} {rest : List HostStep} (hp : s.pend = none)
    (hh : s.host = wr cmdOffset w :: rest) (ht : execWord w { s with host := rest, lost := false } = .next t) :
    step s = .next { s with
      host := rest, lost := false, pend := some t.toRegs, lat := Config.lat t.draws, draws := t.draws + 1,
      rsp := some ⟨none, false⟩ } := by
  have idle : ({ s with host := rest } : State).busy = false := busy_of_none hp
  rw [step_idle hp hh, wr, hostStep, memWrite_at (off := cmdOffset) regAt_cmd, writeReg, idle,
    if_neg (by simp), accept_of_execWord ht]
  rfl

/-- `do M` on an idle machine, whatever LAT is: the registers become those that `exec` gives (R89, R240, R241). -/
theorem run_doCmd {s t : State} {i : Instr} {rest : List HostStep} (hp : s.pend = none) (wf : i.wellFormed = true)
    (hh : s.host = doCmd i ++ rest) (ht : exec i { s with host := .poll :: rest, lost := false } = .next t) :
    ∃ u reads, Collects s reads u ∧ HostAt u t.toRegs rest ∧ StatusReads reads := by
  have accepted := step_writeCmd hp hh ((execWord_of_ok (decode_encode wf) _).trans ht)
  obtain ⟨v, written, pend, clear, host⟩ :
      ∃ v, Collects s [] v ∧ v.pend = some t.toRegs ∧ v.lost = false ∧ v.host = .poll :: rest :=
    ⟨_, .of_step accepted (by simp), rfl, rfl, rfl⟩
  obtain ⟨-, lost, -⟩ := (exec_effect ht).input_bus
  obtain ⟨u, reads, polled, done, status⟩ := run_poll pend clear lost host
  exact ⟨u, _, written.trans polled, done, status⟩

/-- Settles O46: the write to CMD puts the command's registers in PEND, and the poll waits for their completion. -/
theorem doCommandReachesItsResult : Obligations.DoCommandReachesItsResult := by
  intro s t i rest hp wf hh ht
  obtain ⟨u, _, ⟨k, hk, -⟩, ⟨idle, regs, host⟩, -⟩ := run_doCmd hp wf hh ht
  exact ⟨k, u, hk, regs, idle, host⟩

/-! Log entry 9: the check of N comes first. -/

theorem blockChecks_illegal {n : BitVec 5} (h : 16 < n.toNat) (refused wrong : Bool) (s : State) :
    blockChecks refused wrong n s = some .illegal := by
  simp [blockChecks, illegalCount, countOk, h]

theorem keyAbsorbChecks_illegal {n : BitVec 5} (h : 16 < n.toNat) (s : State) :
    keyAbsorbChecks n s = some .illegal := by
  simp [keyAbsorbChecks, illegalCount, countOk, h]

/-- Settles O26: the first check of each command that uses N fails. -/
theorem unencodableCountIsIllegal : Obligations.UnencodableCountIsIllegal := by
  intro n s h i hi
  simp only [List.mem_cons, List.not_mem_nil, or_false] at hi
  rcases hi with rfl | rfl | rfl | rfl | rfl
  · exact exec_error (keyAbsorbChecks_illegal h s)
  all_goals exact exec_error (blockChecks_illegal h _ _ s)

end Sys2Proof.Machine

/-! ### The rotator's commands

What the rotations are to each other, and what ROTL and ROTR leave in OUT0 (spec/40_rotate.md R100 to R104). -/

namespace Sys2Proof.Machine

/-- R104: a right rotation is the left rotation by the rest; at a multiple of 32 both are the word itself. -/
theorem rotr32_eq_rotl32 (v : Word) (s : Nat) : rotr32 v s = rotl32 v (32 - s % 32) := by
  apply BitVec.eq_of_getLsbD_eq
  intro i hi
  rw [getLsbD_rotr32 _ _ hi, getLsbD_rotl32 _ _ hi]
  congr 1; omega

/-- Settles O6: each clause is the rule of the rotator that says it. -/
theorem rotationsAreInverse : Obligations.RotationsAreInverse := fun v s =>
  ⟨rotr32_rotl32 v s, rotl32_rotr32 v s, fun _ => rotr32_eq_rotl32 v s,
    fun _ hi => ⟨getLsbD_rotl32 v s hi, getLsbD_rotr32 v s hi⟩⟩

/-- The word of an opcode and an amount decodes by the opcode's case, with N = 0. -/
theorem decode_amountWord (o : BitVec 8) (k : BitVec 5) :
    decode (o.setWidth 32 ||| k.setWidth 32 <<< 16) = decodeOpcode o 0 k := by
  rw [← commandWord_amount, decode_commandWord _ _ (by decide)]

/-- An amount S is below 32, so it needs no reduction (R100). -/
theorem getLsbD_rotl32_amount (v : Word) (k : BitVec 5) {i : Nat} (hi : i < 32) :
    (rotl32 v k.toNat).getLsbD i = v.getLsbD ((i + (32 - k.toNat)) % 32) := by
  rw [getLsbD_rotl32 v k.toNat hi, Nat.mod_eq_of_lt k.isLt]

/-- Settles O7: the rotator's bits, read on IN0, in the state that ROTL answers. -/
theorem rotlCompletes : Obligations.RotlCompletes := fun k s =>
  ⟨decode_amountWord 0x50 k, _, exec_rotl k s, rfl, rfl, fun _ hi => getLsbD_rotl32_amount s.in0 k hi⟩

/-- Settles O8: the rotator's bits, read on IN0, in the state that ROTR answers, and the left rotation that undoes it. -/
theorem rotrCompletes : Obligations.RotrCompletes := fun k s =>
  ⟨decode_amountWord 0x51 k, _, exec_rotr k s, rfl, rfl, fun _ hi => getLsbD_rotr32 s.in0 k.toNat hi,
    rotl32_rotr32 s.in0 k.toNat⟩

end Sys2Proof.Machine

/-! ### The key commands

When KEY_INIT, KEY_ABSORB and KEY_FINAL are refused, what they leave otherwise, and what absorbing in pieces comes to
(spec/41_key_schedule.md R112 to R114). -/

namespace Sys2Proof.Machine

theorem exec_keyInit_between_streams {s : State} (between : s.smode = .idle ∨ s.smode = .done) :
    exec .keyInit s = .next { s with
      kmsg := [], rk := Vector.replicate 8 0, keyValid := false, keyOpen := true, err := .ok } := by
  refine exec_keyInit_pass (keyInitChecks_eq_none.mpr ?_)
  rcases between with h | h <;> rw [h] <;> rfl

theorem keyInitChecks_in_stream {s : State} (stream : s.smode.inProgress) : keyInitChecks s = some .sequence := by
  rw [keyInitChecks]
  rcases stream with h | h <;> rw [h] <;> rfl

/-- Settles O9: between streams the one check of KEY_INIT passes, and inside a stream it fails. -/
theorem keyInitStartsAKey : Obligations.KeyInitStartsAKey :=
  ⟨by decide, fun _ => ⟨fun between => ⟨_, exec_keyInit_between_streams between, rfl, rfl⟩,
    fun stream => exec_keyInit_error (keyInitChecks_in_stream stream)⟩⟩

theorem keyFinalChecks_closed {s : State} (closed : s.keyOpen = false) : keyFinalChecks s = some .sequence := by
  simp [keyFinalChecks, closed]

theorem exec_keyFinal_open {s : State} (opened : s.keyOpen = true) :
    exec .keyFinal s = .next { s with rk := schedule s.kmsg, keyValid := true, keyOpen := false, err := .ok } :=
  exec_keyFinal_pass (keyFinalChecks_eq_none.mpr opened)

theorem SMode.between_of_not_inProgress {m : SMode} (h : ¬ m.inProgress) : m = .idle ∨ m = .done := by
  cases m with
  | idle => exact .inl rfl
  | enc => exact absurd (.inl rfl) h
  | dec => exact absurd (.inr rfl) h
  | done => exact .inr rfl

/-- A stream in progress has a valid key, and a valid key is not open (R35, R114). -/
theorem RegsInv.not_inProgress_of_open {r : Regs} (inv : RegsInv r) (opened : r.keyOpen = true) :
    ¬ r.smode.inProgress :=
  fun stream => inv.keyStates ⟨inv.streamKeyed stream, opened⟩

/-- Settles O11: the one check of KEY_FINAL is that of the open key, which the invariant keeps out of streams. -/
theorem keyFinalLoadsSchedule : Obligations.KeyFinalLoadsSchedule :=
  ⟨by decide, fun _ => ⟨exec_keyFinal_open, fun closed => exec_keyFinal_error (keyFinalChecks_closed closed),
    fun inv opened => SMode.between_of_not_inProgress (inv.not_inProgress_of_open opened)⟩⟩

/-- The word of an opcode and a legal count decodes by the opcode's case, with S = 0. -/
theorem decode_countWord (o : BitVec 8) {n : BitVec 5} (legal : n.toNat ≤ 16) :
    decode (o.setWidth 32 ||| n.setWidth 32 <<< 8) = decodeOpcode o n 0 := by
  rw [← commandWord_count, decode_commandWord _ _ legal]

theorem keyAbsorbChecks_closed {n : BitVec 5} {s : State} (legal : n.toNat ≤ 16) (closed : s.keyOpen = false) :
    keyAbsorbChecks n s = some .sequence := by
  simp [keyAbsorbChecks, illegalCount_eq_false.mpr legal, closed]

theorem keyAbsorbChecks_tooLong {n : BitVec 5} {s : State} (legal : n.toNat ≤ 16) (opened : s.keyOpen = true)
    (long : Config.keylenMax < s.kmsg.length + n.toNat) : keyAbsorbChecks n s = some .length := by
  simp [keyAbsorbChecks, illegalCount_eq_false.mpr legal, opened, long]

theorem exec_keyAbsorb_open {n : BitVec 5} {s : State} (legal : n.toNat ≤ 16) (opened : s.keyOpen = true)
    (fits : s.kmsg.length + n.toNat ≤ Config.keylenMax) :
    exec (.keyAbsorb n) s = .next { s with kmsg := s.kmsg ++ inPrefix s.inb n.toNat, err := .ok } :=
  exec_keyAbsorb_pass (keyAbsorbChecks_eq_none.mpr ⟨illegalCount_eq_false.mpr legal, opened, fits⟩)

theorem length_inPrefix (inb : Block) {n : Nat} (h : n ≤ 16) : (inPrefix inb n).length = n := by
  simp [inPrefix, h]

/-- KEYLEN holds the length of a key message within the limit (R27, R28). -/
theorem Regs.keylen_toNat {r : Regs} (h : r.kmsg.length ≤ Config.keylenMax) : r.keylen.toNat = r.kmsg.length := by
  rw [Regs.keylen, BitVec.toNat_ofNat]
  rw [Config.keylenMax] at h
  exact Nat.mod_eq_of_lt (by omega)

/-- Settles O10: the checks of KEY_ABSORB in their order, and the lengths before and after, neither of which wraps. -/
theorem keyAbsorbAppendsBytes : Obligations.KeyAbsorbAppendsBytes := by
  intro n s legal
  refine ⟨decode_countWord 0x11 legal, fun closed => exec_keyAbsorb_error (keyAbsorbChecks_closed legal closed),
    fun opened => ⟨fun long => exec_keyAbsorb_error (keyAbsorbChecks_tooLong legal opened long), fun fits => ?_⟩⟩
  have grown : (s.kmsg ++ inPrefix s.inb n.toNat).length = s.kmsg.length + n.toNat := by
    rw [List.length_append, length_inPrefix s.inb legal]
  refine ⟨_, exec_keyAbsorb_open legal opened fits, rfl, ?_, rfl⟩
  rw [Regs.keylen_toNat (grown.trans_le fits), Regs.keylen_toNat (Nat.le_of_add_right_le fits), grown]

/-- The host writes a piece to INB and CORE absorbs its first bytes (R113). -/
def absorbPiece (o : Result) (p : Block × BitVec 5) : Result :=
  andThen o fun v => exec (.keyAbsorb p.2) { v with inb := p.1 }

/-- Pieces that fit, absorbed one after the other, leave the key open with their concatenation appended. -/
theorem foldl_absorbPiece (pieces : List (Block × BitVec 5)) {s : State} (opened : s.keyOpen = true)
    (legal : ∀ p ∈ pieces, p.2.toNat ≤ 16)
    (fits : s.kmsg.length + (pieces.map fun p => p.2.toNat).sum ≤ Config.keylenMax) :
    ∃ t, pieces.foldl absorbPiece (.next s) = .next t ∧ t.keyOpen = true ∧
      t.kmsg = s.kmsg ++ pieces.flatMap fun p => inPrefix p.1 p.2.toNat := by
  induction pieces generalizing s with
  | nil => exact ⟨s, rfl, opened, by simp⟩
  | cons p ps ih =>
    obtain ⟨legalP, legalPs⟩ := List.forall_mem_cons.mp legal
    rw [List.map_cons, List.sum_cons] at fits
    have absorbed : absorbPiece (.next s) p =
        .next { s with inb := p.1, kmsg := s.kmsg ++ inPrefix p.1 p.2.toNat, err := .ok } :=
      exec_keyAbsorb_open (s := { s with inb := p.1 }) legalP opened (by show s.kmsg.length + _ ≤ _; omega)
    rw [List.foldl_cons, absorbed]
    obtain ⟨t, run, openedT, kmsg⟩ := ih (s := { s with
      inb := p.1, kmsg := s.kmsg ++ inPrefix p.1 p.2.toNat, err := .ok }) opened legalPs
      (by simp only [List.length_append, length_inPrefix _ legalP]; omega)
    exact ⟨t, run, openedT, by rw [kmsg, List.flatMap_cons, List.append_assoc]⟩

/-- Settles O12: the pieces leave their concatenation in KMSG, all that KEY_FINAL reads. -/
theorem absorbingInPiecesConcatenates : Obligations.AbsorbingInPiecesConcatenates := by
  intro pieces s opened legal fits
  obtain ⟨t, run, openedT, kmsg⟩ := foldl_absorbPiece pieces opened legal fits
  exact ⟨t, _, run, exec_keyFinal_open openedT, rfl, congrArg schedule kmsg⟩

end Sys2Proof.Machine

/-! ### The padding and the digest

The shape of the padded message, and the digest as the chaining words (spec/41_key_schedule.md R111, R120, R127). -/

namespace Sys2Proof.Machine

/-- Byte `sh` of a 64-bit number comes next after what stands above it. -/
theorem shiftRight_append_byte {x : Nat} (h : x < 2 ^ 64) (sh : Nat) :
    256 * (x >>> (sh + 8)) + ((BitVec.ofNat 64 x).extractLsb' sh 8).toNat = x >>> sh := by
  rw [BitVec.extractLsb'_toNat, BitVec.toNat_ofNat, Nat.mod_eq_of_lt h, Nat.shiftRight_add,
    Nat.shiftRight_eq_div_pow _ 8]
  exact Nat.div_add_mod _ _

/-- The eight bytes of BE64, read most significant first, give the number back (R120). -/
theorem foldl_be64Bytes {x : Nat} (h : x < 2 ^ 64) :
    (be64Bytes x).foldl (fun acc b => 256 * acc + b.toNat) 0 = x := by
  have append := shiftRight_append_byte h
  have top := append 56
  rw [Nat.shiftRight_eq_zero x (56 + 8) h] at top
  simp only [be64Bytes, List.map_cons, List.map_nil, List.foldl_cons, List.foldl_nil]
  rw [top, append 48, append 40, append 32, append 24, append 16, append 8, append 0, Nat.shiftRight_zero]

/-- `shaZeros` is the least `k` with `(len + 1 + k) mod 64 = 56` (R120). -/
theorem shaZeros_least (len : Nat) :
    (len + 1 + shaZeros len) % 64 = 56 ∧ ∀ k, (len + 1 + k) % 64 = 56 → shaZeros len ≤ k := by
  rw [shaZeros]
  exact ⟨by omega, fun k hk => by omega⟩

theorem length_shaPad (m : List Byte) : (shaPad m).length = m.length + 1 + shaZeros m.length + 8 := by
  simp +arith [shaPad, be64Bytes]

/-- Settles O14, with the number of zeros that `shaZeros` gives. -/
theorem shaPaddingShape : Obligations.ShaPaddingShape := by
  intro m
  obtain ⟨fills, least⟩ := shaZeros_least m.length
  exact ⟨shaZeros m.length, rfl, fills, least, foldl_be64Bytes, by rw [length_shaPad]; omega⟩

/-- The digest lists each chaining word most significant byte first (R127). -/
theorem getElem_sha256 (m : List Byte) (i : Fin 8) (j : Fin 4) :
    (sha256 m)[4 * i.val + j.val] = byteLane (shaChain m).words[i] (3 - j) := by
  have word : (4 * i.val + j.val) / 4 = i.val := by omega
  have lane : (4 * i.val + j.val) % 4 = j.val := by omega
  simp [sha256, word, lane]

/-- The big-endian word of digest bytes `4i..4i+3` is the final chaining word `H_i` (R111, R127). -/
theorem be32_sha256 (m : List Byte) (i : Fin 8) :
    be32 (sha256 m)[4 * i.val] (sha256 m)[4 * i.val + 1] (sha256 m)[4 * i.val + 2] (sha256 m)[4 * i.val + 3] =
      (shaChain m).words[i] := by
  have byte := getElem_sha256 m i
  rw [show (sha256 m)[4 * i.val] = _ from byte 0, show (sha256 m)[4 * i.val + 1] = _ from byte 1,
    show (sha256 m)[4 * i.val + 2] = _ from byte 2, show (sha256 m)[4 * i.val + 3] = _ from byte 3]
  exact be32_lanes _

/-- Settles O15: the digest's bytes put together again, and the compression run on the two messages. -/
theorem shaCheckValues : Obligations.ShaCheckValues :=
  ⟨be32_sha256, by decide +kernel, by decide +kernel⟩

/-- Round key `i` is `Schedule`'s big-endian word of the digest (R111). -/
theorem getElem_schedule (key : List Byte) (i : Fin 8) :
    (schedule key)[i] = be32 (sha256 key)[4 * i.val] (sha256 key)[4 * i.val + 1] (sha256 key)[4 * i.val + 2]
      (sha256 key)[4 * i.val + 3] := by
  simp [schedule]

/-- The schedule is the final chaining value, word by word (R111). -/
theorem schedule_eq_words (key : List Byte) : schedule key = (shaChain key).words := by
  ext1 i hi
  exact (getElem_schedule key ⟨i, hi⟩).trans (be32_sha256 key ⟨i, hi⟩)

/-- Settles O13: the digest's big-endian words are the chaining words, which the compression of "testkey" gives. -/
theorem roundKeysAreDigestWords : Obligations.RoundKeysAreDigestWords :=
  ⟨getElem_schedule, schedule_eq_words, by rw [schedule_eq_words]; decide +kernel⟩

end Sys2Proof.Machine

/-! ### The key load

The host procedure KEY_INIT; KEY_ABSORB ...; KEY_FINAL, run on an idle machine (spec/41_key_schedule.md R115;
spec/70_reset_and_hazards.md R233). -/

namespace Sys2Proof.Machine

/-- Between two statements of a key load: no command is pending, the key is open with `key` absorbed, the stream mode is
`m`, and the host is about to execute `prog`. -/
structure LoadingKey (m : SMode) (key : List Byte) (s : State) (prog : List HostStep) : Prop where
  idle : s.pend = none
  opened : s.keyOpen = true
  kmsg : s.kmsg = key
  smode : s.smode = m
  host : s.host = prog

/-- The first `n` bytes of a sequence, as INB holds them. -/
theorem inPrefix_blockOf {l : List Byte} {n : Nat} (small : n ≤ 16) (enough : n ≤ l.length) :
    inPrefix (blockOf l) n = l.take n := by
  apply List.ext_getElem
  · rw [length_inPrefix _ small, List.length_take, Nat.min_eq_left enough]
  · intro i hi _
    rw [length_inPrefix _ small] at hi
    simp [inPrefix, blockOf, List.getElem?_eq_getElem (show i < l.length by omega)]

/-- `do KEY_INIT` between streams opens an empty key, whatever LAT is. -/
theorem run_keyInit {s : State} {rest : List HostStep} (hp : s.pend = none)
    (between : s.smode = .idle ∨ s.smode = .done) (hh : s.host = doCmd .keyInit ++ rest) :
    ∃ u reads, Collects s reads u ∧ LoadingKey s.smode [] u rest := by
  obtain ⟨u, reads, ran, ⟨idle, regs, host⟩, -⟩ := run_doCmd hp rfl hh (exec_keyInit_between_streams between)
  exact ⟨u, reads, ran, idle, by rw [regs], by rw [regs], by rw [regs], host⟩

section
variable {m : SMode} {key : List Byte} {s : State} {rest : List HostStep}

/-- A load of INB and `do KEY_ABSORB n` append the block's first `n` bytes, whatever LAT is. -/
theorem LoadingKey.run_absorb {b : Block} {n : BitVec 5} (legal : n.toNat ≤ 16)
    (fits : key.length + n.toNat ≤ Config.keylenMax)
    (h : LoadingKey m key s (ldBlock b ++ (doCmd (.keyAbsorb n) ++ rest))) :
    ∃ u reads, Collects s reads u ∧ LoadingKey m (key ++ inPrefix b n.toNat) u rest := by
  obtain ⟨v, loaded, idleV, regsV, hostV⟩ := run_ldBlock ⟨h.idle, rfl, h.host⟩
  have kmsgV : v.kmsg = key := (congrArg Regs.kmsg regsV).trans h.kmsg
  have openedV : v.keyOpen = true := (congrArg Regs.keyOpen regsV).trans h.opened
  have smodeV : v.smode = m := (congrArg Regs.smode regsV).trans h.smode
  have inbV : v.inb = b := congrArg Regs.inb regsV
  obtain ⟨u, reads, absorbed, ⟨idle, regs, host⟩, -⟩ := run_doCmd (i := .keyAbsorb n) idleV (decide_eq_true legal)
    hostV (exec_keyAbsorb_open legal openedV (by rw [kmsgV]; exact fits))
  refine ⟨u, _, loaded.trans absorbed, idle, ?_, ?_, ?_, host⟩ <;> rw [regs]
  · exact openedV
  · exact congrArg₂ (fun k b => k ++ inPrefix b n.toNat) kmsgV inbV
  · exact smodeV

/-- `q` full pieces append the first `16 q` bytes of the sequence they are cut from. -/
theorem LoadingKey.run_absorbProc (q : Nat) {l : List Byte} (enough : 16 * q ≤ l.length)
    (fits : key.length + l.length ≤ Config.keylenMax) (h : LoadingKey m key s (absorbProc q l ++ rest)) :
    ∃ u reads, Collects s reads u ∧ LoadingKey m (key ++ l.take (16 * q)) u rest := by
  induction q generalizing key s l with
  | zero => exact ⟨s, [], .refl s, by simpa [absorbProc] using h⟩
  | succ q ih =>
    have full : fullCount.toNat = 16 := rfl
    simp only [absorbProc, List.append_assoc] at h
    obtain ⟨v, _, first, hv⟩ := h.run_absorb (by decide) (by omega)
    rw [full, inPrefix_blockOf le_rfl (by omega)] at hv
    obtain ⟨u, _, others, hu⟩ := ih (by rw [List.length_drop]; omega)
      (by simp only [List.length_append, List.length_take, List.length_drop]; omega) hv
    refine ⟨u, _, first.trans others, ?_⟩
    rwa [List.append_assoc, ← List.take_add, Nat.add_comm, ← Nat.mul_succ] at hu

/-- `do KEY_FINAL` loads the schedule of what was absorbed, whatever LAT is. -/
theorem LoadingKey.run_keyFinal (h : LoadingKey m key s (doCmd .keyFinal ++ rest)) :
    ∃ u reads, Collects s reads u ∧ u.pend = none ∧ u.host = rest ∧ u.rk = schedule key ∧ u.keyValid = true ∧
      u.kmsg = key ∧ u.smode = m := by
  obtain ⟨u, reads, ran, ⟨idle, regs, host⟩, -⟩ := run_doCmd h.idle rfl h.host (exec_keyFinal_open h.opened)
  refine ⟨u, reads, ran, idle, host, ?_, ?_, ?_, ?_⟩ <;> rw [regs]
  · exact congrArg schedule h.kmsg
  · exact h.kmsg
  · exact h.smode

end

/-- Settles O57: KEY_INIT opens an empty key, the full pieces and the rest make it the whole key, and KEY_FINAL loads
its schedule. -/
theorem keyProcedureLoadsTheKey : Obligations.KeyProcedureLoadsTheKey := by
  intro s key rest hp between fits hh
  have short : key.length % 16 < 16 := Nat.mod_lt _ (by decide)
  have count : (BitVec.ofNat 5 (key.length % 16)).toNat = key.length % 16 := by
    rw [BitVec.toNat_ofNat]; omega
  simp only [keyProc, List.append_assoc] at hh
  obtain ⟨t, _, opened, ht⟩ := run_keyInit hp between hh
  obtain ⟨v, _, pieces, hv⟩ := ht.run_absorbProc (key.length / 16) (by omega) (by
    rw [List.length_nil, Nat.zero_add]; exact fits)
  obtain ⟨w, _, last, hw⟩ := hv.run_absorb (by omega) (by
    rw [count, List.nil_append, List.length_take, Nat.min_eq_left (by omega), Nat.div_add_mod]; exact fits)
  have whole : [] ++ key.take (16 * (key.length / 16)) ++
      inPrefix (blockOf (key.drop (16 * (key.length / 16)))) (BitVec.ofNat 5 (key.length % 16)).toNat = key := by
    rw [count, inPrefix_blockOf short.le (by rw [List.length_drop]; omega), List.nil_append, ← List.take_add,
      Nat.div_add_mod, List.take_length]
  rw [whole] at hw
  obtain ⟨u, _, final, done⟩ := hw.run_keyFinal
  obtain ⟨k, ran, -⟩ := ((opened.trans pieces).trans last).trans final
  exact ⟨k, u, ran, done⟩

end Sys2Proof.Machine

/-! ### The rounds undo the inverse rounds

The other direction of the block functions' round laws (spec/42_round.md R144, R147). -/

namespace Sys2Proof.Machine

/-- R144: a round undoes the inverse round under the same key: each XOR cancels with itself, each rotation
with the opposite one, and each sum with its difference. -/
@[simp] theorem roundFn_invRoundFn (st : CipherState) (rk : Word) : roundFn (invRoundFn st rk) rk = st := by
  simp only [invRoundFn, roundFn, BitVec.xor_assoc, BitVec.xor_self, BitVec.xor_zero, BitVec.sub_add_cancel,
    rotl32_rotr32, rotr32_rotl32]

/-- The rounds put back the last inverse round first, so that `n` of them undo `n` inverse rounds. -/
theorem encRoundsUpTo_decRoundsFrom (rk : Schedule) :
    ∀ (n : Nat) (st : CipherState), encRoundsUpTo rk n (decRoundsFrom rk n st) = st
  | 0, _ => rfl
  | n + 1, st => by rw [decRoundsFrom, encRoundsUpTo, encRoundsUpTo_decRoundsFrom rk n, roundFn_invRoundFn]

/-- Settles O16: one round's two laws, and the two loops at the spec's eight rounds. -/
theorem roundsAreInverse : Obligations.RoundsAreInverse :=
  ⟨fun st rk => ⟨invRoundFn_roundFn st rk, roundFn_invRoundFn st rk⟩,
    fun rk st => ⟨decRoundsFrom_encRoundsUpTo rk st Config.rounds, encRoundsUpTo_decRoundsFrom rk Config.rounds st⟩⟩

end Sys2Proof.Machine

/-! ### The block codec

The serializer's bytes, and that the block functions undo each other in both directions
(spec/43_block_codec.md R161 to R163). -/

namespace Sys2Proof.Machine

/-- R161: the byte lanes of the serializer, word by word. -/
theorem getElem_ser (st : CipherState) : ∀ j : Fin 4,
    (ser st)[j.val] = byteLane st.a j ∧ (ser st)[4 + j.val] = byteLane st.b j ∧
      (ser st)[8 + j.val] = byteLane st.c j ∧ (ser st)[12 + j.val] = byteLane st.d j
  | 0 | 1 | 2 | 3 => ⟨rfl, rfl, rfl, rfl⟩

/-- The byte view of an OUT that holds a cipher state is its serialization (R22, R161). -/
theorem outBytes_eq_ser {r : Regs} {st : CipherState} (h : r.out = st.words) : r.outBytes = ser st := by
  rw [← Vector.toList_inj, outBytes_toList, h]; rfl

/-- Settles O18: the lanes, the two inverses, and the byte view. -/
theorem serializerInvertsDeserializer : Obligations.SerializerInvertsDeserializer :=
  ⟨getElem_ser, ser_deser, deser_ser, fun _ _ => outBytes_eq_ser⟩

/-- R163: EncBlock undoes DecBlock under the same schedule. -/
theorem encBlock_decBlock (rk : Schedule) (b : Block) : encBlock rk (decBlock rk b) = b := by
  rw [encBlock, decBlock, deser_ser, encRounds, decRounds, encRoundsUpTo_decRoundsFrom, ser_deser]

/-- Settles O19: the two functions are as the rules write them, and undo each other as the rounds do. -/
theorem decBlockInvertsEncBlock : Obligations.DecBlockInvertsEncBlock := fun rk b =>
  ⟨rfl, rfl, decBlock_encBlock rk b, encBlock_decBlock rk b⟩

end Sys2Proof.Machine

/-! ### The block commands

The checks of a block command in their order, and what ENC_BLOCK and DEC_BLOCK leave when they pass
(spec/43_block_codec.md R164, R165; spec/44_stream.md R180; spec/60_exceptions.md R207). -/

namespace Sys2Proof.Machine

section
variable {refused wrong : Bool} {n : BitVec 5} {s : State}

theorem blockChecks_sequence (legal : n.toNat ≤ 16) (mode : refused = true) :
    blockChecks refused wrong n s = some .sequence := by
  simp [blockChecks, illegalCount_eq_false.mpr legal, mode]

theorem blockChecks_nokey (legal : n.toNat ≤ 16) (mode : refused = false) (unkeyed : s.keyValid = false) :
    blockChecks refused wrong n s = some .nokey := by
  simp [blockChecks, illegalCount_eq_false.mpr legal, mode, unkeyed]

/-- A count N the command does not take and a saturated BLKCNT give the same code, so their order is not seen. -/
theorem blockChecks_length (legal : n.toNat ≤ 16) (mode : refused = false) (keyed : s.keyValid = true)
    (bad : wrong = true ∨ s.blkcnt = Config.blkcntMax) : blockChecks refused wrong n s = some .length := by
  rcases bad with bad | bad <;> simp [blockChecks, illegalCount_eq_false.mpr legal, mode, keyed, bad]

end

theorem SMode.refusesEnc_eq_true {m : SMode} : m.refusesEnc = true ↔ m = .dec ∨ m = .done := by
  cases m <;> simp [SMode.refusesEnc]

theorem SMode.refusesEnc_eq_false {m : SMode} : m.refusesEnc = false ↔ m = .idle ∨ m = .enc := by
  cases m <;> simp [SMode.refusesEnc]

theorem SMode.refusesDec_eq_true {m : SMode} : m.refusesDec = true ↔ m = .enc ∨ m = .done := by
  cases m <;> simp [SMode.refusesDec]

theorem SMode.refusesDec_eq_false {m : SMode} : m.refusesDec = false ↔ m = .idle ∨ m = .dec := by
  cases m <;> simp [SMode.refusesDec]

/-- ST after the rounds of an encryption (R146). -/
theorem runEnc_st (s : State) (b : Block) : (s.runEnc b).st = encRounds s.rk (deser b) :=
  congrArg (fun u : State => u.st) (iterate_encStep s b Config.rounds)

/-- ST after the inverse rounds of a decryption (R147). -/
theorem runDec_st (s : State) (b : Block) : (s.runDec b).st = decRounds s.rk (deser b) :=
  congrArg (fun u : State => u.st) (iterate_decStep s Config.rounds (deser b))

/-- R207: the answers of a block command in the order of its checks. `Answer` is what it does when all of them pass. -/
theorem exec_block_checked {i : Instr} {refused wrong : Bool} {n : BitVec 5} {s : State} {Answer : Prop}
    (checks : commandChecks i s = blockChecks refused wrong n s) (legal : n.toNat ≤ 16)
    (answer : commandChecks i s = none → Answer) :
    (refused = true → exec i s = .next { s with err := .sequence }) ∧
    (refused = false →
      (s.keyValid = false → exec i s = .next { s with err := .nokey }) ∧
      (s.keyValid = true →
        (wrong = true ∨ s.blkcnt = 0xFFFFFFFF → exec i s = .next { s with err := .length }) ∧
        (wrong = false → s.blkcnt ≠ 0xFFFFFFFF → Answer))) := by
  refine ⟨fun mode => exec_error (checks.trans (blockChecks_sequence legal mode)), fun mode =>
    ⟨fun unkeyed => exec_error (checks.trans (blockChecks_nokey legal mode unkeyed)), fun keyed =>
      ⟨fun bad => exec_error (checks.trans (blockChecks_length legal mode keyed bad)), fun count room => answer ?_⟩⟩⟩
  exact checks.trans (blockChecks_eq_none.mpr ⟨illegalCount_eq_false.mpr legal, mode, keyed, count, room⟩)

/-- Settles O21: the checks in their order; let through, OUT holds what the rounds leave in ST. -/
theorem encBlockCompletes : Obligations.EncBlockCompletes := by
  intro n s legal
  have out := congrArg CipherState.words (runEnc_st s s.inb)
  simpa only [SMode.refusesEnc_eq_true, SMode.refusesEnc_eq_false, bne_iff_ne, bne_eq_false_iff_eq] using
    exec_block_checked (i := .encBlock n) rfl legal fun pass => ⟨_, exec_encBlock_pass pass, out, outBytes_eq_ser out, rfl⟩

/-- Settles O22: the checks in their order, none of which looks at the decrypted block; let through, OUT holds what the
inverse rounds leave in ST. -/
theorem decBlockCompletes : Obligations.DecBlockCompletes := by
  intro n s legal
  have out := congrArg CipherState.words (runDec_st s s.inb)
  simpa only [SMode.refusesDec_eq_true, SMode.refusesDec_eq_false, bne_iff_ne, bne_eq_false_iff_eq] using
    exec_block_checked (i := .decBlock n) rfl legal fun pass => ⟨_, exec_decBlock_pass pass, out, outBytes_eq_ser out, rfl⟩

/-- A command that ends with OK has passed its checks. -/
theorem commandChecks_eq_none_of_ok {i : Instr} {s t : State} (h : exec i s = .next t) (ok : t.err = .ok) :
    commandChecks i s = none := by
  cases hc : commandChecks i s with
  | none => rfl
  | some e =>
    rw [exec_error hc] at h; cases h
    exact absurd (ok ▸ hc) (commandChecks_ne_ok i s)

/-- OUT after a block command that ends with OK is a function of RK and INB alone, one for each command and N (R166). -/
theorem blockCommand_out {n : BitVec 5} {i : Instr}
    (block : i ∈ [Instr.encBlock n, Instr.encFinal n, Instr.decBlock n, Instr.decFinal n]) :
    ∃ out : Schedule → Block → Vector Word 4,
      ∀ s t : State, exec i s = .next t → t.err = .ok → t.out = out s.rk s.inb := by
  simp only [List.mem_cons, List.not_mem_nil, or_false] at block
  rcases block with rfl | rfl | rfl | rfl
  · refine ⟨fun rk inb => (encRounds rk (deser inb)).words, fun s t h ok => ?_⟩
    rw [exec_encBlock_pass (commandChecks_eq_none_of_ok h ok), runEnc_st] at h
    cases h; rfl
  · refine ⟨fun rk inb => (encRounds rk (deser (padBlock inb n.toNat))).words, fun s t h ok => ?_⟩
    rw [exec_encFinal_pass (commandChecks_eq_none_of_ok h ok), runEnc_st] at h
    cases h; rfl
  · refine ⟨fun rk inb => (decRounds rk (deser inb)).words, fun s t h ok => ?_⟩
    rw [exec_decBlock_pass (commandChecks_eq_none_of_ok h ok), runDec_st] at h
    cases h; rfl
  · refine ⟨fun rk inb => (decRounds rk (deser inb)).words, fun s t h ok => ?_⟩
    rw [exec_decFinal_pass (commandChecks_eq_none_of_ok h ok), runDec_st] at h
    cases h
    split at ok
    · next valid => exact if_pos valid
    · cases ok

/-- Settles O27: both outputs are the command's one function of the RK and INB that the states share. -/
theorem blocksAreIndependent : Obligations.BlocksAreIndependent := by
  intro n s s' t t' inb rk i block h h' ok ok'
  obtain ⟨out, hout⟩ := blockCommand_out block
  rw [hout s t h ok, hout s' t' h' ok', inb, rk]

end Sys2Proof.Machine

/-! ### The stream commands

NOP and STREAM_INIT, the padder, and the final commands with their checks in order
(spec/44_stream.md R181 to R186). -/

namespace Sys2Proof.Machine

/-- Settles O28: NOP writes ERR alone, whose four bits the mask clears. -/
theorem nopOnlyClearsErr : Obligations.NopOnlyClearsErr := by
  refine ⟨by decide, fun s => ⟨{ s with err := .ok }, rfl, rfl, ?_⟩⟩
  apply BitVec.eq_of_getLsbD_eq
  intro i hi
  simp only [State.statusWord, BitVec.getLsbD_and, BitVec.getLsbD_append]
  interval_cases i <;> simp [Err.code, State.busy]

theorem exec_streamInit (s : State) :
    exec .streamInit s = .next { s with smode := .idle, blkcnt := 0, padlen := 0, err := .ok } := rfl

/-- Settles O29: what STREAM_INIT writes does not depend on the state. -/
theorem streamInitStartsAStream : Obligations.StreamInitStartsAStream :=
  ⟨by decide, fun s => ⟨exec_streamInit s, by rw [exec_streamInit, andThen_of_next, exec_streamInit]⟩⟩

/-- A final block of `n` bytes: the first `n` bytes of INB and `16 - n` bytes of that value (R183). -/
theorem padBlock_toList (inb : Block) (n : Nat) :
    (padBlock inb n).toList = inb.toList.take n ++ List.replicate (16 - n) (BitVec.ofNat 8 (16 - n)) := by
  apply List.ext_getElem
  · simp; omega
  · intro i hi _
    simp only [Vector.length_toList] at hi
    by_cases inside : i < n
    · simp [padBlock, inside, hi]
    · simp [padBlock, padLength, Config.blockBytes, List.getElem_append, inside, hi]

/-- Settles O20: byte by byte of the final block, and from the length of the padded stream. -/
theorem paddingShape : Obligations.PaddingShape := by
  refine ⟨fun inb n _ => padBlock_toList inb n, fun p => ?_⟩
  obtain ⟨pos, small⟩ := padLength_mod_bounds p.length
  exact ⟨padLength (p.length % 16), rfl, pos, small, rfl, by rw [padStream_length]; omega⟩

/-- Settles O23: the checks in their order; let through, OUT holds what the rounds make of the padded block, and
the pad length fits a byte. -/
theorem encFinalCompletes : Obligations.EncFinalCompletes := by
  intro n s legal
  have out := congrArg CipherState.words (runEnc_st s (padBlock s.inb n.toNat))
  have pad : (BitVec.ofNat 8 (padLength n.toNat)).toNat = 16 - n.toNat := by
    rw [BitVec.toNat_ofNat, padLength, Config.blockBytes]; omega
  simpa only [SMode.refusesEnc_eq_true, SMode.refusesEnc_eq_false, beq_iff_eq, beq_eq_false_iff_ne] using
    exec_block_checked (i := .encFinal n) rfl legal fun pass => ⟨_, exec_encFinal_pass pass, out, pad, rfl⟩

/-- Below its maximum BLKCNT counts one more block without wrapping (R25). -/
theorem toNat_blkcnt_succ {c : Word} (room : c ≠ Config.blkcntMax) : (c + 1).toNat = c.toNat + 1 := by
  rw [Config.blkcntMax] at room; bv_omega

theorem padValid_iff {p : Byte} {total : Nat} : padValid p total = true ↔ p ≠ 0 ∧ p.toNat ≤ total := by
  simp [padValid]

/-- DEC_FINAL when its checks pass: what the pad check says of the decrypted block's last byte decides OUT and ERR
(R185, R186). -/
theorem exec_decFinal_checked {n : BitVec 5} {s : State} (h : blockChecks s.smode.refusesDec (n != 16) n s = none) :
    exec (.decFinal n) s = .next { s with
      out := if padValid (decBlock s.rk s.inb)[15] (16 * (s.blkcnt.toNat + 1)) then (decRounds s.rk (deser s.inb)).words
             else Vector.replicate 4 0,
      err := if padValid (decBlock s.rk s.inb)[15] (16 * (s.blkcnt.toNat + 1)) then .ok else .padding,
      blkcnt := s.blkcnt + 1, padlen := (decBlock s.rk s.inb)[15], smode := .done,
      st := s.releaseDatapath.st, rc := s.releaseDatapath.rc, draws := s.draws + 5 } := by
  obtain ⟨-, -, -, -, room⟩ := blockChecks_eq_none.mp h
  rw [exec_decFinal_pass h, runDec_st, toNat_blkcnt_succ room]
  rfl

/-- Settles O24: the checks in their order; let through, the two outcomes of the pad check. -/
theorem decFinalCompletes : Obligations.DecFinalCompletes := by
  intro n s legal
  simpa only [SMode.refusesDec_eq_true, SMode.refusesDec_eq_false, bne_iff_ne, bne_eq_false_iff_eq] using
    exec_block_checked (i := .decFinal n) rfl legal fun pass => by
      refine ⟨_, exec_decFinal_checked pass, rfl, fun valid => ?_, fun invalid => ?_, rfl⟩
      · have valid := padValid_iff.mpr valid
        exact ⟨if_pos valid, if_pos valid, outBytes_eq_ser (if_pos valid)⟩
      · have invalid := mt padValid_iff.mp invalid
        exact ⟨if_neg invalid, if_neg invalid⟩

end Sys2Proof.Machine

/-! ### The stream table

SMODE after every command: the table row by row as the refusals of the checks (spec/44_stream.md R180). -/

namespace Sys2Proof.Machine

@[simp] theorem smodeAfter_keyInit (m : SMode) : smodeAfter .keyInit m = if m.refusesKeyInit then none else some m := by
  cases m <;> rfl

@[simp] theorem smodeAfter_encBlock (n : BitVec 5) (m : SMode) :
    smodeAfter (.encBlock n) m = if m.refusesEnc then none else some .enc := by
  cases m <;> rfl

@[simp] theorem smodeAfter_encFinal (n : BitVec 5) (m : SMode) :
    smodeAfter (.encFinal n) m = if m.refusesEnc then none else some .done := by
  cases m <;> rfl

@[simp] theorem smodeAfter_decBlock (n : BitVec 5) (m : SMode) :
    smodeAfter (.decBlock n) m = if m.refusesDec then none else some .dec := by
  cases m <;> rfl

@[simp] theorem smodeAfter_decFinal (n : BitVec 5) (m : SMode) :
    smodeAfter (.decFinal n) m = if m.refusesDec then none else some .done := by
  cases m <;> rfl

/-- Where the table says SEQUENCE, that is what the checks give: no earlier check fails for a command with an encoding
(R180, R207). -/
theorem commandChecks_sequence {i : Instr} {s : State} (wf : i.wellFormed = true) (h : smodeAfter i s.smode = none) :
    commandChecks i s = some .sequence := by
  cases i with
  | nop | keyAbsorb n | keyFinal | streamInit | rotl k | rotr k => cases h
  | keyInit =>
    have refused : s.smode.refusesKeyInit = true := by simpa using h
    simp [commandChecks, keyInitChecks, refused]
  | encBlock n | encFinal n | decBlock n | decFinal n =>
    exact blockChecks_sequence (of_decide_eq_true wf) (by simpa using h)

/-- Checks never give PADDING: only DEC_FINAL reports it, after it has run (R203). -/
theorem commandChecks_ne_padding (i : Instr) (s : State) : commandChecks i s ≠ some .padding := by
  intro h
  cases i with
  | nop | streamInit | rotl k | rotr k => cases h
  | keyInit | keyAbsorb n | keyFinal | encBlock n | encFinal n | decBlock n | decFinal n =>
    have listed := firstError_mem h
    simp at listed

/-- A command whose checks pass leaves the mode that the table gives, and ends with OK or, DEC_FINAL alone, PADDING. -/
theorem smodeAfter_of_pass {i : Instr} {s : State} (pass : commandChecks i s = none) :
    ∃ t, exec i s = .next t ∧ smodeAfter i s.smode = some t.smode ∧ (t.err = .ok ∨ t.err = .padding) := by
  cases i with
  | nop | streamInit | rotl k | rotr k => exact ⟨_, rfl, rfl, .inl rfl⟩
  | keyInit =>
    exact ⟨_, exec_keyInit_pass pass, by rw [smodeAfter_keyInit, keyInitChecks_eq_none.mp pass]; rfl, .inl rfl⟩
  | keyAbsorb n => exact ⟨_, exec_keyAbsorb_pass pass, rfl, .inl rfl⟩
  | keyFinal => exact ⟨_, exec_keyFinal_pass pass, rfl, .inl rfl⟩
  | encBlock n =>
    obtain ⟨-, allowed, -⟩ := blockChecks_eq_none.mp pass
    exact ⟨_, exec_encBlock_pass pass, by rw [smodeAfter_encBlock, allowed]; rfl, .inl rfl⟩
  | encFinal n =>
    obtain ⟨-, allowed, -⟩ := blockChecks_eq_none.mp pass
    exact ⟨_, exec_encFinal_pass pass, by rw [smodeAfter_encFinal, allowed]; rfl, .inl rfl⟩
  | decBlock n =>
    obtain ⟨-, allowed, -⟩ := blockChecks_eq_none.mp pass
    exact ⟨_, exec_decBlock_pass pass, by rw [smodeAfter_decBlock, allowed]; rfl, .inl rfl⟩
  | decFinal n =>
    obtain ⟨-, allowed, -⟩ := blockChecks_eq_none.mp pass
    refine ⟨_, exec_decFinal_pass pass, by rw [smodeAfter_decFinal, allowed]; rfl, ?_⟩
    exact ite_eq_or_eq _ _ _

/-- Settles O30: a failed check leaves the mode, and is SEQUENCE where the table says so; a command let through leaves
the table's mode. -/
theorem streamTableHolds : Obligations.StreamTableHolds := by
  intro i s wf
  cases hc : commandChecks i s with
  | some e =>
    have notOk : e ≠ .ok := fun he => commandChecks_ne_ok i s (he ▸ hc)
    have notPadding : e ≠ .padding := fun he => commandChecks_ne_padding i s (he ▸ hc)
    refine ⟨_, exec_error hc, fun refused => ⟨?_, rfl⟩, fun m _ ok => ?_, fun _ _ => rfl⟩
    · exact Option.some.inj (hc.symm.trans (commandChecks_sequence wf refused))
    · exact absurd ok (not_or.mpr ⟨notOk, notPadding⟩)
  | none =>
    obtain ⟨t, run, mode, ok⟩ := smodeAfter_of_pass hc
    refine ⟨t, run, fun refused => ?_, fun m hm _ => ?_, fun notOk notPadding => ?_⟩
    · simp [mode] at refused
    · exact Option.some.inj (mode.symm.trans hm)
    · exact absurd ok (not_or.mpr ⟨notOk, notPadding⟩)

end Sys2Proof.Machine

/-! ### What Decrypt refuses

(spec/44_stream.md R186, R187.) -/

namespace Sys2Proof.Machine

/-- A length that is not a positive multiple of 16 is refused before any block is decrypted (R187). -/
theorem decryptStream_badLength (rk : Schedule) {c : List Byte} (h : c.length = 0 ∨ c.length % 16 ≠ 0) :
    decryptStream rk c = .error .invalidCiphertextLength := if_pos h

theorem mapBlocks_length_whole (f : Block → Block) {l : List Byte} (whole : l.length % 16 = 0) :
    (mapBlocks f l).length = l.length := by
  rw [mapBlocks_length]; omega

/-- On whole blocks, the pad check decides (R186, R187). -/
theorem decryptStream_blocks (rk : Schedule) {c : List Byte} (pos : c.length ≠ 0) (whole : c.length % 16 = 0) :
    decryptStream rk c =
      if padValid ((mapBlocks (decBlock rk) c).getLastD 0) c.length then
        .ok ((mapBlocks (decBlock rk) c).take (c.length - ((mapBlocks (decBlock rk) c).getLastD 0).toNat))
      else .error .invalidPadding := by
  simp only [decryptStream, pos, whole, mapBlocks_length_whole _ whole, ne_eq, not_true_eq_false, or_self, if_false]

/-- What the pad check refuses (R186). -/
theorem padValid_eq_false_iff {p : Byte} {total : Nat} : padValid p total = false ↔ p = 0 ∨ total < p.toNat := by
  rw [← Bool.not_eq_true, padValid_iff, not_and_or, not_not, not_le]

/-- Settles O56: the length check, and the pad check on the last decrypted byte, which there is. -/
theorem decryptRefusals : Obligations.DecryptRefusals := by
  intro rk c
  by_cases bad : c.length = 0 ∨ c.length % 16 ≠ 0
  · rw [decryptStream_badLength rk bad]
    refine ⟨iff_of_true rfl bad, iff_of_false (by simp) ?_⟩
    rintro ⟨pos, whole, -⟩
    exact bad.elim pos (· whole)
  · obtain ⟨pos, whole⟩ : c.length ≠ 0 ∧ c.length % 16 = 0 := by simpa using bad
    have nonempty : mapBlocks (decBlock rk) c ≠ [] := by
      rw [← List.length_pos_iff, mapBlocks_length_whole _ whole]; omega
    have last := List.getLast?_eq_some_getLast nonempty
    rw [decryptStream_blocks rk pos whole, List.getLastD_eq_getLast?, last, Option.getD_some]
    refine ⟨iff_of_false (by split <;> simp) bad, ?_⟩
    simp only [pos, whole, Option.some.injEq, exists_eq_left', ne_eq, not_false_eq_true, true_and,
      ← padValid_eq_false_iff]
    split
    · next valid => simp [valid]
    · next invalid => simp [invalid]

end Sys2Proof.Machine

/-! ### Host programs that read OUT

What each piece of a host program reads out of OUT, and in which registers it leaves an idle machine
(spec/30_encoding.md R89; spec/44_stream.md R188, R189). -/

namespace Sys2Proof.Machine

/-- From `s` on the host's program runs, at any LAT, up to `rest`; the host reads `bytes` out of OUT on the way, and the
machine is left idle with registers that satisfy `Post`. -/
def Yields (s : State) (bytes : List Byte) (rest : List HostStep) (Post : Regs → Prop) : Prop :=
  ∃ u r reads, Collects s reads u ∧ HostAt u r rest ∧ Post r ∧ outBytesRead reads = bytes

section
variable {s : State} {r : Regs} {prog rest : List HostStep}

theorem Yields.seq {a b : List Byte} {P Q : Regs → Prop} (first : Yields s a prog P)
    (next : ∀ u r, HostAt u r prog → P r → Yields u b rest Q) : Yields s (a ++ b) rest Q := by
  obtain ⟨u, r, reads, ran, at_u, hP, rfl⟩ := first
  obtain ⟨v, r', reads', ran', at_v, hQ, rfl⟩ := next u r at_u hP
  exact ⟨v, r', _, ran.trans ran', at_v, hQ, outBytesRead_append _ _⟩

/-- A first piece that reads nothing out of OUT. -/
theorem Yields.silent {b : List Byte} {P Q : Regs → Prop} (first : Yields s [] prog P)
    (next : ∀ u r, HostAt u r prog → P r → Yields u b rest Q) : Yields s b rest Q := first.seq next

theorem Yields.mono {b : List Byte} {P Q : Regs → Prop} (h : Yields s b rest P) (weaken : ∀ r, P r → Q r) :
    Yields s b rest Q := by
  obtain ⟨u, r, reads, ran, at_u, hP, bytes⟩ := h
  exact ⟨u, r, reads, ran, at_u, weaken r hP, bytes⟩

theorem yields_ldBlock {b : Block} (h : HostAt s r (ldBlock b ++ rest)) :
    Yields s [] rest (· = { r with inb := b }) := by
  obtain ⟨u, ran, at_u⟩ := run_ldBlock h
  exact ⟨u, _, _, ran, at_u, rfl, rfl⟩

/-- `do M` leaves what `exec` answers on the registers at acceptance, whatever the bus side holds. -/
theorem yields_doCmd {i : Instr} {Post : Regs → Prop} (wf : i.wellFormed = true) (h : HostAt s r (doCmd i ++ rest))
    (answer : ∀ v : State, v.toRegs = { r with lost := false } → ∃ t, exec i v = .next t ∧ Post t.toRegs) :
    Yields s [] rest Post := by
  obtain ⟨t, ht, post⟩ := answer { s with host := .poll :: rest, lost := false } (by rw [← h.regs])
  obtain ⟨u, reads, ran, at_u, status⟩ := run_doCmd h.idle wf h.host ht
  exact ⟨u, _, reads, ran, at_u, post, status.noOut⟩

theorem yields_expectOk (h : HostAt s r (.expectErr .ok :: rest)) (ok : r.err = .ok) : Yields s [] rest (· = r) := by
  obtain ⟨u, v, ran, at_u⟩ := run_expectOk h ok
  exact ⟨u, r, _, ran, at_u, rfl, rfl⟩

theorem yields_rdout (h : HostAt s r (rdout ++ rest)) : Yields s r.outBytes.toList rest (· = r) := by
  obtain ⟨u, reads, ran, at_u, bytes⟩ := run_rdout h
  exact ⟨u, r, reads, ran, at_u, rfl, bytes⟩

/-- `do M` and `expect ERR = OK`, for a command that ends with OK. -/
theorem yields_doOk {i : Instr} {Post : Regs → Prop} (wf : i.wellFormed = true) (h : HostAt s r (doOk i ++ rest))
    (answer : ∀ v : State, v.toRegs = { r with lost := false } →
      ∃ t, exec i v = .next t ∧ t.err = .ok ∧ Post t.toRegs) : Yields s [] rest Post := by
  rw [doOk, List.append_assoc] at h
  refine (yields_doCmd (Post := fun r => r.err = .ok ∧ Post r) wf h answer).silent fun u r' at_u ⟨ok, post⟩ => ?_
  exact (yields_expectOk at_u ok).mono fun _ same => same ▸ post

end

end Sys2Proof.Machine

/-! ### Blocks of a stream

A stream under way, what each block command makes of it, and the host's loop over the full blocks
(spec/44_stream.md R180, R188, R189). -/

namespace Sys2Proof.Machine

/-- A stream under the schedule `rk` with `count` blocks processed, whose mode does not refuse the commands of its
direction: `refuses` is `SMode.refusesEnc` or `SMode.refusesDec`. -/
structure InStream (refuses : SMode → Bool) (rk : Schedule) (count : Nat) (r : Regs) : Prop where
  keyed : r.keyValid = true
  schedule : r.rk = rk
  allowed : refuses r.smode = false
  blkcnt : r.blkcnt.toNat = count

section
variable {refuses : SMode → Bool} {rk : Schedule} {k : Nat}

/-- Loading INB leaves the stream as it is. -/
theorem InStream.loaded {r : Regs} (h : InStream refuses rk k r) (b : Block) :
    InStream refuses rk k { r with inb := b } :=
  ⟨h.keyed, h.schedule, h.allowed, h.blkcnt⟩

/-- The registers on which an accepted command runs are those of the stream (R240). -/
theorem InStream.accepted {r : Regs} {v : State} (h : InStream refuses rk k r)
    (hv : v.toRegs = { r with lost := false }) : InStream refuses rk k v.toRegs := by
  rw [hv]; exact ⟨h.keyed, h.schedule, h.allowed, h.blkcnt⟩

theorem InStream.blkcnt_ne_max {r : Regs} (h : InStream refuses rk k r) (room : k < 2 ^ 32 - 1) :
    r.blkcnt ≠ Config.blkcntMax := by
  intro full
  have count := h.blkcnt
  rw [full, show Config.blkcntMax.toNat = 2 ^ 32 - 1 from rfl] at count
  omega

/-- With room for one more block, a command of the stream's direction passes its checks if it takes its count N. -/
theorem InStream.blockChecks_none {v : State} {n : BitVec 5} {wrong : Bool} (h : InStream refuses rk k v.toRegs)
    (room : k < 2 ^ 32 - 1) (legal : n.toNat ≤ 16) (count : wrong = false) :
    blockChecks (refuses v.smode) wrong n v = none :=
  blockChecks_eq_none.mpr ⟨illegalCount_eq_false.mpr legal, h.allowed, h.keyed, count, h.blkcnt_ne_max room⟩

theorem InStream.blkcnt_succ {r : Regs} (h : InStream refuses rk k r) (room : k < 2 ^ 32 - 1) :
    (r.blkcnt + 1).toNat = k + 1 := by
  rw [toNat_blkcnt_succ (h.blkcnt_ne_max room), h.blkcnt]

/-- A count of at most 16 fits field N (R81). -/
theorem toNat_ofNat_count {n : Nat} (h : n ≤ 16) : (BitVec.ofNat 5 n).toNat = n := by
  rw [BitVec.toNat_ofNat]; omega

theorem count_ne_full {n : BitVec 5} (short : n.toNat < 16) : n ≠ 16 := by
  rintro rfl; exact absurd short (by decide)

theorem wellFormed_encFinal {n : BitVec 5} (legal : n.toNat ≤ 16) : (Instr.encFinal n).wellFormed = true :=
  decide_eq_true legal

theorem wellFormed_decFinal {n : BitVec 5} (legal : n.toNat ≤ 16) : (Instr.decFinal n).wellFormed = true :=
  decide_eq_true legal

/-- An OUT captured after the rounds of an encryption is the encrypted block (R22, R162). -/
theorem outBytes_of_runEnc {r : Regs} {v : State} {b : Block} (out : r.out = (v.runEnc b).st.words) :
    r.outBytes = encBlock v.rk b :=
  outBytes_eq_ser (out.trans (congrArg CipherState.words (runEnc_st v b)))

/-- An OUT captured after the inverse rounds of a decryption is the decrypted block (R22, R163). -/
theorem outBytes_of_runDec {r : Regs} {v : State} {b : Block} (out : r.out = (v.runDec b).st.words) :
    r.outBytes = decBlock v.rk b :=
  outBytes_eq_ser (out.trans (congrArg CipherState.words (runDec_st v b)))

theorem InStream.exec_encBlock {v : State} (h : InStream SMode.refusesEnc rk k v.toRegs) (room : k < 2 ^ 32 - 1) :
    ∃ t, exec (.encBlock fullCount) v = .next t ∧ t.err = .ok ∧
      InStream SMode.refusesEnc rk (k + 1) t.toRegs ∧ t.outBytes = encBlock rk v.inb := by
  refine ⟨_, exec_encBlock_pass (h.blockChecks_none room (by decide) rfl), rfl,
    ⟨h.keyed, h.schedule, rfl, h.blkcnt_succ room⟩, ?_⟩
  rw [← h.schedule]
  exact outBytes_of_runEnc rfl

theorem InStream.exec_encFinal {v : State} {n : BitVec 5} (h : InStream SMode.refusesEnc rk k v.toRegs)
    (room : k < 2 ^ 32 - 1) (short : n.toNat < 16) :
    ∃ t, exec (.encFinal n) v = .next t ∧ t.err = .ok ∧ t.outBytes = encBlock rk (padBlock v.inb n.toNat) := by
  have count : (n == 16) = false := beq_eq_false_iff_ne.mpr (count_ne_full short)
  refine ⟨_, exec_encFinal_pass (h.blockChecks_none room short.le count), rfl, ?_⟩
  rw [← h.schedule]
  exact outBytes_of_runEnc rfl

theorem InStream.exec_decBlock {v : State} (h : InStream SMode.refusesDec rk k v.toRegs) (room : k < 2 ^ 32 - 1) :
    ∃ t, exec (.decBlock fullCount) v = .next t ∧
      InStream SMode.refusesDec rk (k + 1) t.toRegs ∧ t.outBytes = decBlock rk v.inb := by
  refine ⟨_, exec_decBlock_pass (h.blockChecks_none room (by decide) rfl),
    ⟨h.keyed, h.schedule, rfl, h.blkcnt_succ room⟩, ?_⟩
  rw [← h.schedule]
  exact outBytes_of_runDec rfl

/-- DEC_FINAL of a short chunk reports LENGTH (R185). -/
theorem InStream.exec_decFinal_short {v : State} {n : BitVec 5} (h : InStream SMode.refusesDec rk k v.toRegs)
    (short : n.toNat < 16) : exec (.decFinal n) v = .next { v with err := .length } :=
  exec_error (blockChecks_length short.le h.allowed h.keyed (.inl (bne_iff_ne.mpr (count_ne_full short))))

/-- What DEC_FINAL of a full block leaves: the pad length, and the two outcomes of the pad check (R185, R186). -/
structure DecFinished (total : Nat) (b : Block) (r : Regs) : Prop where
  padlen : r.padlen = b[15]
  accepted : padValid b[15] total = true → r.err = .ok ∧ r.outBytes = b
  refused : padValid b[15] total = false → r.err = .padding

theorem InStream.exec_decFinal_full {v : State} (h : InStream SMode.refusesDec rk k v.toRegs) (room : k < 2 ^ 32 - 1) :
    ∃ t, exec (.decFinal 16) v = .next t ∧ DecFinished (16 * (k + 1)) (decBlock rk v.inb) t.toRegs := by
  refine ⟨_, exec_decFinal_checked (h.blockChecks_none room (by decide) rfl), ?_⟩
  rw [h.blkcnt, ← h.schedule]
  exact ⟨rfl, fun valid => ⟨if_pos valid, outBytes_eq_ser (if_pos valid)⟩, fun invalid => if_neg (by simp [invalid])⟩

/-- `run` processes the block in INB as the stream's next and leaves `f` of it in OUT. -/
def ProcessesBlock (refuses : SMode → Bool) (rk : Schedule) (f : Block → Block) (run : List HostStep) : Prop :=
  ∀ (k : Nat) (s : State) (r : Regs) (rest : List HostStep), InStream refuses rk k r → k < 2 ^ 32 - 1 →
    HostAt s r (run ++ rest) →
    Yields s [] rest fun r' => InStream refuses rk (k + 1) r' ∧ r'.outBytes = f r.inb

theorem processesBlock_encBlock (rk : Schedule) :
    ProcessesBlock SMode.refusesEnc rk (encBlock rk) (doOk (.encBlock fullCount)) := by
  intro k s r rest stream room h
  refine yields_doOk rfl h fun v hv => ?_
  rw [show r.inb = v.inb by rw [hv]]
  exact (stream.accepted hv).exec_encBlock room

theorem processesBlock_decBlock (rk : Schedule) :
    ProcessesBlock SMode.refusesDec rk (decBlock rk) (doCmd (.decBlock fullCount)) := by
  intro k s r rest stream room h
  refine yields_doCmd rfl h fun v hv => ?_
  rw [show r.inb = v.inb by rw [hv]]
  exact (stream.accepted hv).exec_decBlock room

/-- The host's loop reads out `f` of each of the first `q` blocks, in order. -/
theorem ProcessesBlock.yields_blocksProc {f : Block → Block} {run : List HostStep}
    (block : ProcessesBlock refuses rk f run) (q : Nat) {l : List Byte} {s : State} {r : Regs} {rest : List HostStep}
    (stream : InStream refuses rk k r) (room : k + q ≤ 2 ^ 32 - 1) (h : HostAt s r (blocksProc run q l ++ rest)) :
    Yields s ((blocksOf q l).flatMap fun b => (f b).toList) rest (InStream refuses rk (k + q)) := by
  induction q generalizing k l s r with
  | zero => exact ⟨s, r, [], .refl s, h, stream, rfl⟩
  | succ q ih =>
    simp only [blocksProc, List.append_assoc] at h
    rw [blocksOf, List.flatMap_cons]
    refine (yields_ldBlock h).silent ?_
    rintro s1 _ h1 rfl
    refine (block k s1 _ _ (stream.loaded _) (by omega) h1).silent fun s2 r2 h2 ⟨stream2, out⟩ => ?_
    rw [← out]
    refine (yields_rdout h2).seq ?_
    rintro s3 _ h3 rfl
    rw [show k + (q + 1) = k + 1 + q by omega]
    exact ih stream2 (by omega) h3

/-- STREAM_INIT starts a stream of either direction (R180, R181). -/
theorem inStream_streamInit (idle : refuses .idle = false) {r : Regs} (keyed : r.keyValid = true) (err : Err)
    (lost : Bool) :
    InStream refuses r.rk 0 { r with smode := .idle, blkcnt := 0, padlen := 0, err := err, lost := lost } :=
  ⟨keyed, rfl, idle, rfl⟩

/-- A block function on `q + 1` whole blocks: the first `q`, then the last. -/
theorem mapBlocks_succ (f : Block → Block) {l : List Byte} {q : Nat} (h : l.length / 16 = q + 1) :
    mapBlocks f l = ((blocksOf q l).flatMap fun b => (f b).toList) ++ (f (blockOf (l.drop (16 * q)))).toList := by
  rw [mapBlocks, h, blocksOf_succ, List.flatMap_append, List.flatMap_singleton]

end

end Sys2Proof.Machine

/-! ### The procedure Encrypt(P) (spec/44_stream.md R187, R188) -/

namespace Sys2Proof.Machine

/-- Encrypt(P) is the full blocks encrypted, then the padded last chunk. -/
theorem encryptStream_eq (rk : Schedule) (p : List Byte) :
    encryptStream rk p =
      ((blocksOf (p.length / 16) p).flatMap fun b => (encBlock rk b).toList) ++
        (encBlock rk (padBlock (blockOf (p.drop (16 * (p.length / 16)))) (p.length % 16))).toList := by
  rw [encryptStream, mapBlocks_succ (q := p.length / 16) _ (by rw [padStream_length]; omega), blockOf_padStream,
    padStream, blocksOf_append _ _ _ (Nat.mul_div_le _ _)]

/-- The last lines of R188: the short chunk is padded and encrypted, and read out. -/
theorem InStream.yields_encFinal {rk : Schedule} {k : Nat} {s : State} {r : Regs} {b : Block} {n : BitVec 5}
    {rest : List HostStep} (stream : InStream SMode.refusesEnc rk k r) (room : k < 2 ^ 32 - 1)
    (short : n.toNat < 16)
    (h : HostAt s r (ldBlock b ++ (doOk (.encFinal n) ++ (rdout ++ rest)))) :
    Yields s (encBlock rk (padBlock b n.toNat)).toList rest fun _ => True := by
  refine (yields_ldBlock h).silent ?_
  rintro s1 _ h1 rfl
  have final := yields_doOk (Post := fun r => r.outBytes = encBlock rk (padBlock b n.toNat))
    (wellFormed_encFinal short.le) h1 fun v hv => by
      rw [show b = v.inb by rw [hv]]
      exact ((stream.loaded b).accepted hv).exec_encFinal room short
  refine final.silent fun s2 r2 h2 out => ?_
  rw [← out]
  exact (yields_rdout h2).mono fun _ _ => trivial

/-- The host procedure reads out the bytes of Encrypt(P). -/
theorem yields_encryptProc {s : State} {r : Regs} {p : List Byte} {rest : List HostStep} (keyed : r.keyValid = true)
    (fits : p.length / 16 + 1 ≤ 2 ^ 32 - 1) (h : HostAt s r (encryptProc p ++ rest)) :
    Yields s (encryptStream r.rk p) rest fun _ => True := by
  have short : p.length % 16 < 16 := Nat.mod_lt _ (by decide)
  have count : (BitVec.ofNat 5 (p.length % 16)).toNat = p.length % 16 := toNat_ofNat_count short.le
  simp only [encryptProc, List.append_assoc] at h
  rw [encryptStream_eq, ← count]
  have init := yields_doOk (Post := InStream SMode.refusesEnc r.rk 0) rfl h fun v hv =>
    ⟨_, exec_streamInit v, rfl, hv ▸ inStream_streamInit rfl keyed .ok false⟩
  refine init.silent fun s1 r1 h1 stream => ?_
  refine ((processesBlock_encBlock r.rk).yields_blocksProc _ stream (by omega) h1).seq fun s2 r2 h2 stream => ?_
  exact stream.yields_encFinal (by omega) (by rwa [count]) h2

/-- Settles O58: the reads of OUT are the encrypted blocks and the encrypted padded chunk, which is Encrypt(P). -/
theorem encryptProcedureComputesEncrypt : Obligations.EncryptProcedureComputesEncrypt := by
  intro s p rest hp keyed fits hh
  obtain ⟨u, r, reads, ⟨k, ran, collected⟩, at_u, -, bytes⟩ := yields_encryptProc keyed fits ⟨hp, rfl, hh⟩
  exact ⟨k, u, reads, ran, at_u.idle, at_u.host, collected, bytes, by rw [bytes, length_encryptStream]⟩

end Sys2Proof.Machine

/-! ### The procedure Decrypt(C) (spec/44_stream.md R186, R187, R189) -/

namespace Sys2Proof.Machine

/-- The blocks before the last chunk lie inside C, and the last chunk has at most 16 bytes: 16 exactly when the length
of C is a positive multiple of 16 (R189). -/
theorem decryptBlocks_chunk (c : List Byte) :
    16 * (decryptBlocks c - 1) ≤ c.length ∧ c.length - 16 * (decryptBlocks c - 1) ≤ 16 ∧
      (c.length - 16 * (decryptBlocks c - 1) = 16 ↔ ¬ (c.length = 0 ∨ c.length % 16 ≠ 0)) := by
  rw [decryptBlocks]; omega

theorem getLastD_append_block (l : List Byte) (b : Block) : (l ++ b.toList).getLastD 0 = b[15] := by
  simp [List.getLastD_eq_getLast?, List.getLast?_eq_getElem?]

/-- The pad byte of `q + 1` whole blocks is the last byte of the last block. -/
theorem mapBlocks_getLastD (f : Block → Block) {l : List Byte} {q : Nat} (h : l.length / 16 = q + 1) :
    (mapBlocks f l).getLastD 0 = (f (blockOf (l.drop (16 * q))))[15] := by
  rw [mapBlocks_succ f h, getLastD_append_block]

theorem lastRead_append_same (off : Offset) (reads : List (Offset × Word)) (v : Word) :
    lastRead off (reads ++ [(off, v)]) = v := by
  simp [lastRead]

theorem lastRead_append_other {off off' : Offset} (h : off' ≠ off) (reads : List (Offset × Word)) (v : Word) :
    lastRead off (reads ++ [(off', v)]) = lastRead off reads := by
  simp [lastRead, h]

/-- The last three lines of R189: the answer that ERR and PADLEN give for the bytes read out of OUT. -/
def decryptVerdict (err : Err) (padlen : Byte) (bytes : List Byte) : Except CipherError (List Byte) :=
  if err = .length then .error .invalidCiphertextLength
  else if err = .padding then .error .invalidPadding
  else .ok (bytes.take (bytes.length - padlen.toNat))

/-- The codes of ERR tell its values apart (R201). -/
theorem Err.code_eq_iff {e : Err} :
    (e.code = Err.length.code ↔ e = .length) ∧ (e.code = Err.padding.code ↔ e = .padding) := by
  cases e <;> decide

/-- The host's answer is that of the bytes read and of the last reads of PADLEN and STATUS. -/
theorem decryptAnswer_append (reads : List (Offset × Word)) {v w : Word} {p : Byte} {e : Err}
    (padlen : v.toNat = p.toNat) (err : statusErr w = e.code) :
    decryptAnswer (reads ++ [(0x0C, v)] ++ [(statusOffset, w)]) = decryptVerdict e p (outBytesRead reads) := by
  have out : outBytesRead (reads ++ [(0x0C, v)] ++ [(statusOffset, w)]) = outBytesRead reads := by
    rw [List.append_assoc, outBytesRead_append]; exact List.append_nil _
  rw [decryptAnswer, out, lastRead_append_same, lastRead_append_other (by decide), lastRead_append_same, err, padlen,
    decryptVerdict]
  simp only [Err.code_eq_iff]

/-- After the bytes read so far, OUT, PADLEN and STATUS give the answer of R189. -/
theorem Yields.decryptAnswer {s : State} {bytes : List Byte} {rest : List HostStep} {P : Regs → Prop}
    (h : Yields s bytes (rdout ++ ([.read 0x0C, .read statusOffset] ++ rest)) P) :
    ∃ u r reads, Collects s reads u ∧ HostAt u r rest ∧ P r ∧
      decryptAnswer reads = decryptVerdict r.err r.padlen (bytes ++ r.outBytes.toList) := by
  obtain ⟨s1, r, reads1, ran1, h1, post, rfl⟩ := h
  obtain ⟨s2, _, reads2, ran2, h2, rfl, out⟩ := yields_rdout h1
  obtain ⟨s3, ran3, h3⟩ := run_read (n := .padlen) h2 rfl
  obtain ⟨s4, ran4, h4⟩ := run_read (n := .status) h3 rfl
  refine ⟨s4, _, _, ((ran1.trans ran2).trans ran3).trans ran4, h4, post, ?_⟩
  rw [← out, ← outBytesRead_append]
  refine decryptAnswer_append _ ?_ ?_
  · rw [State.regValue, h2.regs, BitVec.toNat_setWidth]; omega
  · rw [State.regValue, statusErr_statusWord, h3.regs]

/-- Registers from which the host gives the answer of Decrypt(C), once it has read out the first `k` blocks. -/
def GivesDecrypt (rk : Schedule) (c : List Byte) (k : Nat) (r : Regs) : Prop :=
  decryptVerdict r.err r.padlen (((blocksOf k c).flatMap fun b => (decBlock rk b).toList) ++ r.outBytes.toList) =
    decryptStream rk c

/-- DEC_FINAL of a last chunk that is short, after which Decrypt(C) refuses the length. -/
theorem InStream.exec_decFinal_refuses {rk : Schedule} {k : Nat} {v : State} {n : BitVec 5} {c : List Byte}
    (h : InStream SMode.refusesDec rk k v.toRegs) (short : n.toNat < 16) (bad : c.length = 0 ∨ c.length % 16 ≠ 0) :
    ∃ t, exec (.decFinal n) v = .next t ∧ GivesDecrypt rk c k t.toRegs :=
  ⟨_, h.exec_decFinal_short short, (decryptStream_badLength rk bad).symm⟩

/-- DEC_FINAL of the last of whole blocks, after which the pad check decides. -/
theorem InStream.exec_decFinal_decides {rk : Schedule} {k : Nat} {v : State} {c : List Byte}
    (h : InStream SMode.refusesDec rk k v.toRegs) (room : k < 2 ^ 32 - 1) (whole : c.length = 16 * (k + 1))
    (last : v.inb = blockOf (c.drop (16 * k))) :
    ∃ t, exec (.decFinal 16) v = .next t ∧ GivesDecrypt rk c k t.toRegs := by
  obtain ⟨t, ht, padlen, accepted, refused⟩ := h.exec_decFinal_full room
  have blocks : c.length / 16 = k + 1 := by omega
  refine ⟨t, ht, ?_⟩
  rw [GivesDecrypt, decryptStream_blocks rk (by omega) (by omega), mapBlocks_getLastD _ blocks, ← last, padlen, whole]
  cases valid : padValid (decBlock rk v.inb)[15] (16 * (k + 1)) with
  | true =>
    obtain ⟨ok, out⟩ := accepted valid
    rw [ok, out, last, ← mapBlocks_succ _ blocks, ← whole, ← mapBlocks_length_whole (decBlock rk) (l := c) (by omega)]
    rfl
  | false => rw [refused valid]; rfl

/-- Before the last chunk, DEC_FINAL of it brings the host to the answer of Decrypt(C). -/
theorem InStream.exec_decFinal_lastChunk {rk : Schedule} {v : State} {c : List Byte}
    (h : InStream SMode.refusesDec rk (decryptBlocks c - 1) v.toRegs) (room : decryptBlocks c - 1 < 2 ^ 32 - 1)
    (last : v.inb = blockOf (c.drop (16 * (decryptBlocks c - 1)))) :
    ∃ t, exec (.decFinal (BitVec.ofNat 5 (c.length - 16 * (decryptBlocks c - 1)))) v = .next t ∧
      GivesDecrypt rk c (decryptBlocks c - 1) t.toRegs := by
  obtain ⟨before, fits, full⟩ := decryptBlocks_chunk c
  by_cases bad : c.length = 0 ∨ c.length % 16 ≠ 0
  · have short := lt_of_le_of_ne fits (mt full.mp (not_not_intro bad))
    exact h.exec_decFinal_refuses (by rwa [toNat_ofNat_count fits]) bad
  · have whole := full.mpr bad
    rw [whole]
    exact h.exec_decFinal_decides room (by omega) last

/-- The host procedure, up to its reads of the last block, PADLEN and STATUS. -/
theorem yields_decryptProc {s : State} {r : Regs} {c : List Byte} {rest : List HostStep} (keyed : r.keyValid = true)
    (fits : c.length < 16 * (2 ^ 32 - 1)) (h : HostAt s r (decryptProc c ++ rest)) :
    Yields s ((blocksOf (decryptBlocks c - 1) c).flatMap fun b => (decBlock r.rk b).toList)
      (rdout ++ ([.read 0x0C, .read statusOffset] ++ rest)) (GivesDecrypt r.rk c (decryptBlocks c - 1)) := by
  obtain ⟨before, chunk, -⟩ := decryptBlocks_chunk c
  have room : decryptBlocks c - 1 < 2 ^ 32 - 1 := by omega
  simp only [decryptProc, List.append_assoc] at h
  have init := yields_doCmd (Post := InStream SMode.refusesDec r.rk 0) rfl h fun v hv =>
    ⟨_, exec_streamInit v, hv ▸ inStream_streamInit rfl keyed .ok false⟩
  rw [← List.append_nil (List.flatMap _ _)]
  refine init.silent fun s1 r1 h1 stream => ?_
  refine ((processesBlock_decBlock r.rk).yields_blocksProc _ stream (by omega) h1).seq fun s2 r2 h2 stream => ?_
  rw [Nat.zero_add] at stream
  refine (yields_ldBlock h2).silent ?_
  rintro s3 _ h3 rfl
  refine yields_doCmd (wellFormed_decFinal ((toNat_ofNat_count chunk).trans_le chunk)) h3 fun v hv => ?_
  exact ((stream.loaded _).accepted hv).exec_decFinal_lastChunk room (by rw [hv])

/-- Settles O59: DEC_FINAL of the last chunk leaves the registers from which the host's reads give Decrypt(C). -/
theorem decryptProcedureComputesDecrypt : Obligations.DecryptProcedureComputesDecrypt := by
  intro s c rest hp keyed fits hh
  obtain ⟨u, r, reads, ⟨k, ran, collected⟩, at_u, gives, answer⟩ :=
    (yields_decryptProc keyed fits ⟨hp, rfl, hh⟩).decryptAnswer
  exact ⟨k, u, reads, ran, at_u.idle, at_u.host, collected, answer.trans gives⟩

end Sys2Proof.Machine

/-! ### Error codes

Which code a failed check or a pad check reports, and which commands can report it
(spec/60_exceptions.md R200 to R206). -/

namespace Sys2Proof.Machine

/-- The check whose code a list of checks gives is in the list and has failed. -/
theorem firstError_failed_mem {e : Err} : ∀ {l : List (Bool × Err)}, firstError l = some e → (true, e) ∈ l
  | (c, e') :: l, h => by
    rw [firstError_cons] at h
    split at h
    · next failed => cases h; exact failed ▸ List.mem_cons_self
    · exact List.mem_cons_of_mem _ (firstError_failed_mem h)

theorem keyInitChecks_some {e : Err} {s : State} (h : keyInitChecks s = some e) :
    s.smode.refusesKeyInit = true ∧ e = .sequence := by
  simpa using firstError_failed_mem h

theorem keyFinalChecks_some {e : Err} {s : State} (h : keyFinalChecks s = some e) :
    s.keyOpen = false ∧ e = .sequence := by
  simpa using firstError_failed_mem h

theorem keyAbsorbChecks_some {e : Err} {n : BitVec 5} {s : State} (legal : n.toNat ≤ 16)
    (h : keyAbsorbChecks n s = some e) :
    s.keyOpen = false ∧ e = .sequence ∨ Config.keylenMax < s.kmsg.length + n.toNat ∧ e = .length := by
  simpa [illegalCount_eq_false.mpr legal] using firstError_failed_mem h

/-- Which code the checks of a command with an encoding can give, and when: never ILLEGAL or PADDING. -/
theorem commandChecks_some {i : Instr} {e : Err} {s : State} (wf : i.wellFormed = true)
    (h : commandChecks i s = some e) :
    (e = .sequence ∧
      (smodeAfter i s.smode = none ∨ s.keyOpen = false ∧ (i = .keyFinal ∨ ∃ n, i = .keyAbsorb n))) ∨
    (e = .nokey ∧ s.keyValid = false ∧ ∃ n, i = .encBlock n ∨ i = .encFinal n ∨ i = .decBlock n ∨ i = .decFinal n) ∨
    e = .length := by
  cases i with
  | nop | streamInit | rotl k | rotr k => cases h
  | keyInit =>
    obtain ⟨refused, code⟩ := keyInitChecks_some h
    exact .inl ⟨code, .inl (by rw [smodeAfter_keyInit, if_pos refused])⟩
  | keyFinal =>
    obtain ⟨closed, code⟩ := keyFinalChecks_some h
    exact .inl ⟨code, .inr ⟨closed, .inl rfl⟩⟩
  | keyAbsorb n =>
    obtain ⟨closed, code⟩ | ⟨-, code⟩ := keyAbsorbChecks_some (of_decide_eq_true wf) h
    · exact .inl ⟨code, .inr ⟨closed, .inr ⟨n, rfl⟩⟩⟩
    · exact .inr (.inr code)
  | encBlock n | encFinal n | decBlock n | decFinal n =>
    obtain ⟨-, illegal⟩ | ⟨code, refused⟩ | ⟨code, unkeyed⟩ | code := blockChecks_some h
    · exact absurd illegal (by simp [illegalCount_eq_false.mpr (of_decide_eq_true wf)])
    · exact .inl ⟨code, .inl (by simp [refused])⟩
    · exact .inr (.inl ⟨code, unkeyed, n, by simp⟩)
    · exact .inr (.inr code)

/-- A command whose checks pass ends with OK, but for DEC_FINAL with an invalid pad (R203). -/
theorem exec_of_pass {i : Instr} {s : State} (pass : commandChecks i s = none) :
    ∃ t, exec i s = .next t ∧ (t.err = .ok ∨ t.err = .padding ∧ s.keyValid = true ∧ ∃ n, i = .decFinal n) := by
  cases i with
  | nop | streamInit | rotl k | rotr k => exact ⟨_, rfl, .inl rfl⟩
  | keyInit => exact ⟨_, exec_keyInit_pass pass, .inl rfl⟩
  | keyAbsorb n => exact ⟨_, exec_keyAbsorb_pass pass, .inl rfl⟩
  | keyFinal => exact ⟨_, exec_keyFinal_pass pass, .inl rfl⟩
  | encBlock n => exact ⟨_, exec_encBlock_pass pass, .inl rfl⟩
  | encFinal n => exact ⟨_, exec_encFinal_pass pass, .inl rfl⟩
  | decBlock n => exact ⟨_, exec_decBlock_pass pass, .inl rfl⟩
  | decFinal n =>
    obtain ⟨-, -, keyed, -⟩ := blockChecks_eq_none.mp pass
    exact ⟨_, exec_decFinal_pass pass, (ite_eq_or_eq _ _ _).imp_right fun padding => ⟨padding, keyed, n, rfl⟩⟩

/-- Settles O31: a failed check writes ERR alone, and past the checks only DEC_FINAL can fail. -/
theorem failedCommandChangesOnlyErr : Obligations.FailedCommandChangesOnlyErr := by
  refine ⟨fun i s => ?_, fun _ _ s illegal => execWord_of_error illegal s⟩
  cases hc : commandChecks i s with
  | some e => exact ⟨_, exec_error hc, fun _ => .inl rfl⟩
  | none =>
    obtain ⟨t, run, ok | ⟨padding, -, decFinal⟩⟩ := exec_of_pass hc
    · exact ⟨t, run, fun failed => absurd ok failed⟩
    · exact ⟨t, run, fun _ => .inr ⟨padding, decFinal⟩⟩

/-- Settles O32: a code other than PADDING comes from a failed check, PADDING from a DEC_FINAL whose checks pass. -/
theorem errorsComeFromTheirCommands : Obligations.ErrorsComeFromTheirCommands := by
  intro i s t wf h
  cases hc : commandChecks i s with
  | some e =>
    rw [exec_error hc] at h; cases h
    obtain ⟨rfl, refused⟩ | ⟨rfl, unkeyed⟩ | rfl := commandChecks_some wf hc
    · simpa using refused
    · simpa using unkeyed
    · simp
  | none =>
    obtain ⟨t', run, code⟩ := exec_of_pass hc
    cases run.symm.trans h
    obtain ok | ⟨padding, decFinal⟩ := code
    · simp [ok]
    · simpa [padding] using decFinal

end Sys2Proof.Machine

/-! ### Host statements, one by one

What each statement of the host's program does to the machine, faults included, and how a step comes to one
(spec/20_memory.md R55 to R58; spec/70_reset_and_hazards.md R240 to R243). -/

namespace Sys2Proof.Machine

/-- The registers that a host write can change: CMD and the input words (R52). -/
def RegName.hostWritten (r : RegName) : Prop := r = .cmd ∨ ∃ k, r = .inWord k

/-- Only word-aligned offsets hold a register (R55). -/
theorem aligned_of_regAt {off : Offset} {r : RegName} (h : regAt off = some r) : off.toNat % 4 = 0 := by
  by_contra misaligned
  cases (regAt_misaligned misaligned).symm.trans h

/-- The offsets of CMD and of IN0..IN3 (R52). -/
theorem hostWritten_offset_iff {off : Offset} :
    (∃ r, regAt off = some r ∧ r.hostWritten) ↔
      off = 0x00 ∨ off = 0x20 ∨ off = 0x24 ∨ off = 0x28 ∨ off = 0x2C := by
  constructor
  · rintro ⟨r, hr, written⟩
    have aligned := aligned_of_regAt hr
    rcases written with rfl | ⟨k, rfl⟩
    · have word := offset_of_regAt_cmd hr
      bv_omega
    · have word := offset_of_regAt_inWord hr
      bv_omega
  · rintro (rfl | rfl | rfl | rfl | rfl)
    · exact ⟨_, regAt_cmd, .inl rfl⟩
    · exact ⟨_, regAt_inWord 0, .inr ⟨0, rfl⟩⟩
    · exact ⟨_, regAt_inWord 1, .inr ⟨1, rfl⟩⟩
    · exact ⟨_, regAt_inWord 2, .inr ⟨2, rfl⟩⟩
    · exact ⟨_, regAt_inWord 3, .inr ⟨3, rfl⟩⟩

theorem offset_eq_of_regAt_cmd {off : Offset} (h : regAt off = some .cmd) : off = 0x00 := by
  have word := offset_of_regAt_cmd h
  have aligned := aligned_of_regAt h
  bv_omega

/-- While BUSY = 1 such a write only sets LOST (R243). -/
theorem writeReg_busy {r : RegName} {s : State} (written : r.hostWritten) (busy : s.busy = true) (v : Word) :
    writeReg r v s = .next { s with lost := true } := by
  rcases written with rfl | ⟨k, rfl⟩ <;> rw [writeReg, if_pos busy]

theorem writeReg_cmd_idle {s : State} (idle : s.pend = none) (w : Word) : writeReg .cmd w s = accept w s := by
  simp [writeReg, busy_of_none idle]

theorem writeReg_inWord_idle {s : State} (idle : s.pend = none) (k : Fin 4) (v : Word) :
    writeReg (.inWord k) v s = .next { s with inb := setInWord s.inb k v } := by
  simp [writeReg, busy_of_none idle]

/-- Every word written to CMD is answered (R200, R202). -/
theorem execWord_next (w : Word) (s : State) : ∃ t, execWord w s = .next t := by
  cases hw : decode w with
  | error e => exact ⟨_, execWord_of_error hw s⟩
  | ok i =>
    obtain ⟨t, run, -⟩ := failedCommandChangesOnlyErr.1 i s
    exact ⟨t, (execWord_of_ok hw s).trans run⟩

/-- A word written to CMD leaves LOST alone, whatever it decodes to (R240). -/
theorem execWord_lost {w : Word} {s t : State} (h : execWord w s = .next t) : t.lost = s.lost := by
  obtain ⟨i, effect⟩ := execWord_effect h
  obtain ⟨-, lost, -⟩ := effect.input_bus
  exact lost

/-- A full write to a register's offset is taken (R56). -/
theorem hostStep_write {off : Offset} {r : RegName} {v : Word} {s u : State} (hr : regAt off = some r)
    (hu : writeReg r v s = .next u) : hostStep (.write off 0b1111 v) s = .next (answered none u) := by
  rw [hostStep, memWrite_at hr, hu]; rfl

/-- STATUS.BUSY reads BUSY, pending command or not (R24, R242). -/
theorem statusBusy_hostRead (s : State) : statusBusy (hostRead statusOffset s).1 = s.busy := by
  simp only [hostRead, memRead_at (show regAt statusOffset = some .status from rfl)]
  cases busy : s.busy with
  | false => rw [readReg_idle busy]; exact (statusBusy_statusWord s).trans busy
  | true => rw [readReg_drawn busy rfl]; exact statusBusy_busyStatus _ _

/-- The state `t` after the statement `h`: unlike `HostEffect`, it says which statement does what, and what is left of
the host's program. -/
inductive StatementEffect (s : State) : HostStep → State → Prop where
  /-- R230 -/
  | reset : StatementEffect s .reset s.resetCore
  /-- a poll that reads BUSY = 1 stays (R89) -/
  | waits {t : State} (regs : t.toRegs = s.toRegs) (pend : t.pend = s.pend) (host : t.host = .poll :: s.host) :
      StatementEffect s .poll t
  /-- a read, a finished poll, an `expect` that holds, or a write that CORE ignores without marking it (R56, R57) -/
  | quiet {h : HostStep} {t : State} (settled : h.settles = true → s.busy = false) (regs : t.toRegs = s.toRegs)
      (pend : t.pend = s.pend) (host : t.host = s.host) : StatementEffect s h t
  /-- R243 -/
  | lost {off : Offset} {r : RegName} (v : Word) (hr : regAt off = some r) (written : r.hostWritten)
      (busy : s.busy = true) : StatementEffect s (.write off 0b1111 v) (answered none { s with lost := true })
  /-- R21 -/
  | input {off : Offset} {k : Fin 4} (v : Word) (hr : regAt off = some (.inWord k)) (idle : s.pend = none) :
      StatementEffect s (.write off 0b1111 v) (answered none { s with inb := setInWord s.inb k v })
  /-- R240 -/
  | accepted {off : Offset} {w : Word} {r : State} (hr : regAt off = some .cmd) (idle : s.pend = none)
      (ran : execWord w { s with lost := false } = .next r) :
      StatementEffect s (.write off 0b1111 w) (answered none { s with
        lost := false, pend := some r.toRegs, lat := Config.lat r.draws, draws := r.draws + 1 })

/-- A full aligned write is taken, whatever stands at its offset (R56). -/
theorem hostStep_write_effect {off : Offset} (aligned : off.toNat % 4 = 0) (v : Word) (s : State) :
    ∃ t, hostStep (.write off 0b1111 v) s = .next t ∧ StatementEffect s (.write off 0b1111 v) t := by
  obtain ⟨r, hr⟩ := regAt_aligned aligned
  by_cases written : r.hostWritten
  · cases hp : s.pend with
    | some p =>
      have busy : s.busy = true := busy_of_some hp
      exact ⟨_, hostStep_write hr (writeReg_busy written busy v), .lost v hr written busy⟩
    | none =>
      rcases written with rfl | ⟨k, rfl⟩
      · obtain ⟨t, ran⟩ := execWord_next v { s with lost := false }
        have run := (writeReg_cmd_idle hp v).trans (accept_of_execWord ran)
        exact ⟨_, hostStep_write hr run, .accepted hr hp ran⟩
      · exact ⟨_, hostStep_write hr (writeReg_inWord_idle hp k v), .input v hr hp⟩
  · obtain ⟨notCmd, notInput⟩ := not_or.mp written
    have ignored := writeReg_ignored notCmd (not_exists.mp notInput) v s
    exact ⟨_, hostStep_write hr ignored, .quiet nofun rfl rfl rfl⟩

/-- An aligned read is taken, whatever stands at its offset (R56). -/
theorem hostStep_read {off : Offset} (aligned : off.toNat % 4 = 0) (s : State) :
    hostStep (.read off) s = .next (hostRead off s).2 := by
  obtain ⟨r, hr⟩ := regAt_aligned aligned
  rw [hostStep, hostRead, memRead_at hr]; rfl

/-- A statement that is refused is one that is not an aligned full transaction (R55); nothing but an `expect` fails
otherwise (R89). -/
theorem hostStep_cases (h : HostStep) (s : State) :
    (∃ t, hostStep h s = .next t ∧ StatementEffect s h t) ∨
    (∃ e, hostStep h s = .fault (.expectationFailed e)) ∨
    h.aligned = false ∧ ∃ off, hostStep h s = .fault (.refusedTransaction off) := by
  cases h with
  | read off =>
    obtain ⟨regs, pend, -, host⟩ := hostRead_frame off s
    by_cases aligned : off.toNat % 4 = 0
    · exact .inl ⟨_, hostStep_read aligned s, .quiet nofun regs pend host⟩
    · refine .inr (.inr ⟨by simp [HostStep.aligned, aligned], off, ?_⟩)
      rw [hostStep, hostRead, memRead_refused aligned]; rfl
  | write off strb v =>
    by_cases full : off.toNat % 4 = 0 ∧ strb = 0b1111
    · obtain ⟨aligned, rfl⟩ := full
      exact .inl (hostStep_write_effect aligned v s)
    · refine .inr (.inr ⟨by simpa [HostStep.aligned] using full, off, ?_⟩)
      rw [hostStep, memWrite_refused (not_and_or.mp full), andThen_of_next, faultIfRefused_refusedBus]
  | poll =>
    obtain ⟨regs, pend, -, host⟩ := hostRead_frame statusOffset s
    simp only [hostStep, statusBusy_hostRead]
    cases busy : s.busy with
    | true => exact .inl ⟨_, if_pos rfl, .waits regs pend (congrArg _ host)⟩
    | false => exact .inl ⟨_, if_neg nofun, .quiet (fun _ => busy) regs pend host⟩
  | expectErr e =>
    obtain ⟨regs, pend, -, host⟩ := hostRead_frame statusOffset s
    by_cases holds : statusErr (hostRead statusOffset s).1 = e.code
    · exact .inl ⟨_, if_pos holds, .quiet nofun regs pend host⟩
    · exact .inr (.inl ⟨e, if_neg holds⟩)
  | reset => exact .inl ⟨_, rfl, .reset⟩

/-- A statement that is answered has its effect. -/
theorem statementEffect_of_hostStep {h : HostStep} {s t : State} (ht : hostStep h s = .next t) :
    StatementEffect s h t := by
  obtain ⟨t', run, effect⟩ | ⟨e, run⟩ | ⟨-, off, run⟩ := hostStep_cases h s
  · cases run.symm.trans ht; exact effect
  · cases run.symm.trans ht
  · cases run.symm.trans ht

theorem step_complete {s : State} {r : Regs} (hp : s.pend = some r) (hl : s.lat = 0) :
    step s = .next (complete r s) := by
  simp only [step, advance, hp, hl, if_true]

/-- A silent host leaves a busy machine to count LAT down. -/
theorem step_busy_silent {s : State} {r : Regs} (hp : s.pend = some r) (hl : s.lat ≠ 0) (hh : s.host = []) :
    step s = .next { s with lat := s.lat - 1 } := by
  simp only [step, advance, hp, if_neg hl, hostTurn, hh]

/-- A silent host leaves an idle machine as it is (R217). -/
theorem step_ended {s : State} (ended : s.ended) : step s = .next s := by
  obtain ⟨hh, hp⟩ := ended
  simp only [step, advance, hp, hostTurn, hh]

/-- The host's turn, pending command or not: only LAT may have counted down (R20, R240). -/
theorem step_statement {s : State} {h : HostStep} {rest : List HostStep} (turn : s.pend = none ∨ s.lat ≠ 0)
    (hh : s.host = h :: rest) : ∃ lat, step s = hostStep h { s with host := rest, lat := lat } := by
  by_cases hp : s.pend = none
  · exact ⟨s.lat, step_idle hp hh⟩
  · obtain ⟨r, pending⟩ := Option.ne_none_iff_exists'.mp hp
    exact ⟨s.lat - 1, step_busy pending (turn.resolve_left hp) hh⟩

/-- A step completes the pending command, or finds the host silent, or is the host's next statement. -/
theorem step_cases (s : State) :
    (∃ r, s.pend = some r ∧ step s = .next (complete r s)) ∨ (∃ lat, step s = .next { s with lat := lat }) ∨
    ∃ h rest lat, s.host = h :: rest ∧ step s = hostStep h { s with host := rest, lat := lat } := by
  by_cases turn : s.pend = none ∨ s.lat ≠ 0
  · by_cases hh : s.host = []
    · by_cases hp : s.pend = none
      · exact .inr (.inl ⟨s.lat, step_ended ⟨hh, hp⟩⟩)
      · obtain ⟨r, pending⟩ := Option.ne_none_iff_exists'.mp hp
        exact .inr (.inl ⟨_, step_busy_silent pending (turn.resolve_left hp) hh⟩)
    · obtain ⟨h, rest, hh⟩ := List.exists_cons_of_ne_nil hh
      obtain ⟨lat, run⟩ := step_statement turn hh
      exact .inr (.inr ⟨h, rest, lat, hh, run⟩)
  · obtain ⟨pending, out⟩ := not_or.mp turn
    obtain ⟨r, hp⟩ := Option.ne_none_iff_exists'.mp pending
    exact .inl ⟨r, hp, step_complete hp (not_not.mp out)⟩

end Sys2Proof.Machine

/-! ### The busy hazard

A host that keeps the rule of R244 loses no write and meets no refusal (spec/70_reset_and_hazards.md R243, R244). -/

namespace Sys2Proof.Machine

/-- A host that keeps the rule when a command may be pending keeps it when none is. -/
theorem polite_mono {l : List HostStep} {b b' : Bool} (le : b' = true → b = true) (h : polite b l = true) :
    polite b' l = true := by
  induction l generalizing b b' with
  | nil => rfl
  | cons st rest ih =>
    cases b' with
    | true => rwa [le rfl] at h
    | false =>
      simp only [polite, Bool.and_eq_true] at h ⊢
      obtain ⟨⟨aligned, -⟩, later⟩ := h
      exact ⟨⟨aligned, rfl⟩, ih (by simp +contextual) later⟩

/-- The writes that CORE loses while BUSY = 1 are writes that the rule forbids then (R243, R244). -/
theorem needsIdle_write {off : Offset} {r : RegName} (hr : regAt off = some r) (written : r.hostWritten)
    (strb : BitVec 4) (v : Word) : (HostStep.write off strb v).needsIdle = true := by
  rcases written with rfl | ⟨k, rfl⟩ <;> rw [HostStep.needsIdle, hr]

/-- The invariant of O54: the host keeps the rule from here on, and no write has been lost. -/
structure PoliteHost (s : State) : Prop where
  rule : polite s.busy s.host = true
  kept : s.lost = false
  pending : ∀ r, s.pend = some r → r.lost = false

/-- A statement that the rule allows leaves a host that keeps the rule. -/
theorem StatementEffect.politeHost {h : HostStep} {s t : State} (effect : StatementEffect s h t)
    (rule : polite s.busy (h :: s.host) = true) (kept : s.lost = false)
    (pending : ∀ r, s.pend = some r → r.lost = false) : PoliteHost t := by
  obtain ⟨⟨-, waits⟩, later⟩ : (h.aligned = true ∧ (!(s.busy && h.needsIdle)) = true) ∧
      polite (s.busy && !h.settles || h.issues) s.host = true := by
    simpa only [polite, Bool.and_eq_true] using rule
  cases effect with
  | reset => exact ⟨polite_mono nofun later, rfl, nofun⟩
  | waits regs pend host =>
    exact ⟨by rwa [State.busy, pend, host], by rwa [regs], by rwa [pend]⟩
  | quiet settled regs pend host =>
    refine ⟨?_, by rwa [regs], by rwa [pend]⟩
    rw [State.busy, pend, host]
    refine polite_mono (fun busy => ?_) later
    cases hs : h.settles with
    | true => exact absurd busy (by rw [← State.busy, settled hs]; nofun)
    | false => rw [State.busy, busy]; rfl
  | lost v hr written busy => simp [busy, needsIdle_write hr written] at waits
  | input v hr idle =>
    exact ⟨polite_mono (by simp [State.busy, idle]) later, kept, by simpa using pending⟩
  | accepted hr idle ran =>
    refine ⟨polite_mono (fun _ => by simp [HostStep.issues, hr]) later, rfl, ?_⟩
    rintro _ ⟨⟩
    exact execWord_lost ran

/-- A step of a machine whose host keeps the rule leaves such a machine, unless an `expect` of the host fails. -/
theorem PoliteHost.step {s : State} (inv : PoliteHost s) :
    (∃ t, step s = .next t ∧ PoliteHost t) ∨ ∃ e, step s = .fault (.expectationFailed e) := by
  obtain ⟨rule, kept, pending⟩ := inv
  obtain ⟨r, -, run⟩ | ⟨lat, run⟩ | ⟨h, rest, lat, hh, run⟩ := step_cases s
  · exact .inl ⟨_, run, polite_mono nofun rule, kept, nofun⟩
  · exact .inl ⟨_, run, rule, kept, pending⟩
  rw [hh] at rule
  rw [run]
  obtain ⟨t, ht, effect⟩ | failed | ⟨misaligned, -⟩ := hostStep_cases h { s with host := rest, lat := lat }
  · exact .inl ⟨t, ht, effect.politeHost rule kept pending⟩
  · exact .inr failed
  · simp [polite, misaligned] at rule

theorem PoliteHost.safeRun {s : State} (inv : PoliteHost s) : SafeRun s := by
  intro k off
  induction k generalizing s with
  | zero => rw [run_zero]; nofun
  | succ k ih =>
    obtain ⟨t, ht, next⟩ | ⟨e, failed⟩ := inv.step
    · rw [run_succ ht]; exact ih next
    · simp only [Host.Core.run, show Sys2Proof.core.step s = _ from failed]; nofun

/-- Settles O54: every step keeps the invariant or fails an `expect`, which is no refusal. -/
theorem politeHostLosesNothing : Obligations.PoliteHostLosesNothing := by
  intro s rule kept pending
  have inv : PoliteHost s := ⟨rule, kept, pending⟩
  refine ⟨inv.safeRun, fun t ht => ?_⟩
  obtain ⟨t', run, ⟨rule', kept', pending'⟩⟩ | ⟨e, failed⟩ := inv.step
  · cases run.symm.trans ht; exact ⟨kept', rule', pending'⟩
  · cases failed.symm.trans ht

/-- Settles O48: of the statements, only a lost write sets LOST, and only a reset or an acceptance clears it. -/
theorem lostFollowsIgnoredWrites : Obligations.LostFollowsIgnoredWrites := by
  intro s t ht
  obtain ⟨r, -, run⟩ | ⟨lat, run⟩ | ⟨h, rest, lat, hh, run⟩ := step_cases s
  · cases run.symm.trans ht; simp +contextual
  · cases run.symm.trans ht; simp +contextual
  cases statementEffect_of_hostStep (run.symm.trans ht) with
  | reset => exact ⟨nofun, fun _ _ => ⟨rest, .inl hh⟩⟩
  | waits regs | quiet _ regs => rw [regs]; simp +contextual
  | lost v hr written busy =>
    exact ⟨fun _ _ => ⟨busy, _, v, rest, hh, hostWritten_offset_iff.mp ⟨_, hr, written⟩⟩, nofun⟩
  | input => simp +contextual
  | accepted hr idle =>
    obtain rfl := offset_eq_of_regAt_cmd hr
    exact ⟨nofun, fun _ _ => ⟨rest, .inr ⟨busy_of_none idle, _, hh⟩⟩⟩

/-- Settles O47: such a write is taken and only marked. -/
theorem busyWriteIsLost : Obligations.BusyWriteIsLost := by
  intro s p off v rest hp hl five hh
  obtain ⟨r, hr, written⟩ := hostWritten_offset_iff.mpr five
  have busy : ({ s with host := rest, lat := s.lat - 1 } : State).busy = true := busy_of_some hp
  exact (step_busy hp hl hh).trans (hostStep_write hr (writeReg_busy written busy v))

end Sys2Proof.Machine

/-! ### Reading, running and completing a pending command, and reset

(spec/70_reset_and_hazards.md R230, R231, R240 to R242, R246.) -/

namespace Sys2Proof.Machine

/-- Settles O38: STATUS reads its two fixed bits around the draw; the others are no result registers, which read the
same busy or not. -/
theorem busyReads : Obligations.BusyReads := by
  intro s r hp
  have status : (memRead 0x04 s).1 = busyStatus s.lost (Config.draw32 s.draws) := by
    rw [memRead_at regAt_status, readReg_drawn (busy_of_some hp) rfl]; rfl
  rw [status]
  refine ⟨statusBusy_busyStatus _ _, ?_, fun k => ?_, ?_⟩
  · simp only [busyStatus, BitVec.getLsbD_append]; simp
  · rw [memRead_at (regAt_inWord k), readReg_plain s rfl]; rfl
  · rintro off aligned (rfl | range)
    · rw [memRead_at regAt_cmd, readReg_plain s rfl]; rfl
    · rw [memRead_at (regAt_reserved aligned range), readReg_plain s rfl]; rfl

/-- Settles O43: the word written to CMD is accepted, and `execWord` is `exec` of what it decodes to, or ILLEGAL. -/
theorem stepRunsTheDecodedCommand : Obligations.StepRunsTheDecodedCommand := fun _ _ _ hp hh =>
  ⟨fun _ _ hw ht => step_writeCmd hp hh ((execWord_of_ok hw _).trans ht),
    fun _ hw => step_writeCmd hp hh (execWord_of_error hw _)⟩

/-- Settles O44: the step is the completion. -/
theorem completionInstallsPending : Obligations.CompletionInstallsPending := fun _ _ => step_complete

/-- Settles O45, by induction on LAT: each busy step counts it down, and the completion ends the run. -/
theorem pendingCommandCompletes : Obligations.PendingCommandCompletes := by
  intro s r hp hh
  refine ⟨_, ?_, rfl, ⟨hh, rfl⟩, step_ended ⟨hh, rfl⟩⟩
  induction hl : s.lat generalizing s with
  | zero => rw [run_succ (step_complete hp hl), run_zero, complete, ← hl]
  | succ n ih =>
    have counts := step_busy_silent hp (by omega) hh
    rw [hl, Nat.add_sub_cancel] at counts
    rw [run_succ counts]
    exact ih (s := { s with lat := n }) hp hh rfl

/-- Settles O49: the host's turn is the reset, whatever LAT is left. -/
theorem resetAbandonsEverything : Obligations.ResetAbandonsEverything := by
  intro s rest turn hh
  obtain ⟨lat, run⟩ := step_statement turn hh
  exact ⟨_, run, rfl, rfl, (by decide : State.reset.statusWord = 0), rfl, rfl⟩

theorem padBlock_congr {b b' : Block} {n : Nat} (same : b.toList.take n = b'.toList.take n) :
    padBlock b n = padBlock b' n := by
  rw [← Vector.toList_inj, padBlock_toList, padBlock_toList, same]

/-- Settles O25: the checks do not read INB, KEY_ABSORB appends its first `n` bytes, and ENC_FINAL encrypts the block
padded from them. -/
theorem staleBytesHaveNoEffect : Obligations.StaleBytesHaveNoEffect := by
  intro n s b same i hi
  have checks : commandChecks i { s with inb := b } = commandChecks i s := by cases i <;> rfl
  cases hc : commandChecks i s with
  | some e => exact ⟨_, exec_error hc, exec_error (checks.trans hc)⟩
  | none =>
    rw [hc] at checks
    simp only [List.mem_cons, List.not_mem_nil, or_false] at hi
    rcases hi with rfl | rfl
    · refine ⟨_, exec_keyAbsorb_pass hc, (exec_keyAbsorb_pass checks).trans ?_⟩
      simp only [inPrefix, same]
    · refine ⟨_, exec_encFinal_pass hc, (exec_encFinal_pass checks).trans ?_⟩
      simp only [runEnc_st, padBlock_congr same]
      rfl

end Sys2Proof.Machine
